-- ==== Sys2Proof/Word.lean ====
section
/-! DEFINITION. The word types of GF256-EF (00_scope.md R12): bytes and 32-bit register words, all unsigned. -/

namespace Sys2Proof

/-- A byte: a field element, a buffer index or a length (R12, R73). -/
abbrev Byte := BitVec 8

/-- A 32-bit register value or command word (R11, R70). -/
abbrev Word := BitVec 32

end Sys2Proof
end

