-- ==== Sys2Proof/Config.lean ====
section
/-! DEFINITION. What is fixed for the life of the hardware (00_scope.md R5 to R11), and the one parameter the spec
leaves open, BASE (R10). -/

namespace Sys2Proof

/-- `PRIM_POLY` (R6): x^8 + x^4 + x^3 + x^2 + 1, a 9-bit value.
DESIGN CHOICE (log entry 7): R6 lets a model take it as an argument; it is fixed at the value R11 gives. -/
def Config.primPoly : BitVec 9 := 0x11D#9

/-- `ALPHA` (R7): the generator element, the element x. Fixed at R11's value (log entry 7). -/
def Config.alpha : Byte := 0x02#8

/-- `N_MAX` (R9): the depth of both buffers and the largest codeword length. Fixed at R11's value (log entry 7). -/
def Config.nMax : Nat := 255

/-- The order of the multiplicative group, `FIELD_SIZE - 1` (R5). -/
def Config.groupOrder : Nat := 255

/-- The length of the register window in bytes (R50). -/
def Config.windowSize : Nat := 0x20

/-- Which 0x20-byte slot of the host's address space the window takes. The spec leaves it open (R10, D27, I10), so
it is an uninterpreted constant: nothing can be proved of its value (log entry 6). -/
opaque Config.baseSlot : Nat

/-- `BASE` (R10): the host address of offset 0x00, aligned to 0x20 (D27). -/
def Config.base : Nat := Config.windowSize * Config.baseSlot

end Sys2Proof
end

