-- ==== Sys2Proof/Syntax.lean ====
section
/-! DEFINITION. The commands of GF256-EF: one constructor per row of the opcode map (30_encoding.md R74). -/

namespace Sys2Proof

/-- A command with its operands (30_encoding.md R72, R73). Each operand has exactly the width of its field, so an
operand that does not fit its field cannot be written here (log entry 17); the assembler's check of operands that
may not fit is in WellFormed.lean. -/
inductive Instr where
  /-- NOP (43_control_ops.md R180). -/
  | nop
  /-- GF_ADD a, b (40_field_ops.md R108). -/
  | gfAdd (a b : Byte)
  /-- GF_MUL a, b (R109). -/
  | gfMul (a b : Byte)
  /-- GF_DIV a, b (R110). -/
  | gfDiv (a b : Byte)
  /-- GF_EXP i (R111): a 16-bit index. -/
  | gfExp (i : BitVec 16)
  /-- GF_LOG v (R112). -/
  | gfLog (v : Byte)
  /-- CW_WR addr, data (41_buffer_ops.md R131). -/
  | cwWr (addr data : Byte)
  /-- CW_RD addr (R132). -/
  | cwRd (addr : Byte)
  /-- FM_WR addr, f (R133): the flag is one bit, `true` for fixed. -/
  | fmWr (addr : Byte) (f : Bool)
  /-- FM_RD addr (R134). -/
  | fmRd (addr : Byte)
  /-- SET_LEN n, known (R130). -/
  | setLen (n known : Byte)
  /-- ERASE_FILL (42_erasure_fill.md R150). -/
  | eraseFill
  /-- CLR_STATUS (43_control_ops.md R181). -/
  | clrStatus
  deriving DecidableEq, Repr

end Sys2Proof
end

