-- ==== Sys2Proof/WellFormed.lean ====
section
/-! DEFINITION. Assembler commands and the check that each operand fits its field (30_encoding.md R78, R79). -/

namespace Sys2Proof

/-- A command as an assembler reads it (R78): operands are integers that may not fit their fields. The last four
are the pseudo-commands of R79. -/
inductive Asm where
  | nop
  | gfAdd (a b : Nat)
  | gfMul (a b : Nat)
  | gfDiv (a b : Nat)
  | gfExp (i : Nat)
  | gfLog (v : Nat)
  | cwWr (addr data : Nat)
  | cwRd (addr : Nat)
  | fmWr (addr f : Nat)
  | fmRd (addr : Nat)
  | setLen (n known : Nat)
  | eraseFill
  | clrStatus
  | gfSub (a b : Nat)
  | gfInv (b : Nat)
  | fmFix (addr : Nat)
  | fmFree (addr : Nat)
  deriving DecidableEq, Repr

/-- Whether an operand fits a field of `width` bits. -/
def fits (width v : Nat) : Bool := decide (v < 2 ^ width)

/-- The check of R78: every operand fits its field (a, b, v, addr, data, n and known 8 bits, i 16 bits, f 1 bit).
An assembler must reject what fails it. -/
def Asm.wellFormed : Asm → Bool
  | .nop | .eraseFill | .clrStatus => true
  | .gfAdd a b | .gfMul a b | .gfDiv a b | .gfSub a b => fits 8 a && fits 8 b
  | .gfExp i => fits 16 i
  | .gfLog v => fits 8 v
  | .cwWr addr data => fits 8 addr && fits 8 data
  | .cwRd addr | .fmRd addr | .fmFix addr | .fmFree addr => fits 8 addr
  | .fmWr addr f => fits 8 addr && fits 1 f
  | .setLen n known => fits 8 n && fits 8 known
  | .gfInv b => fits 8 b

/-- The command an assembler command stands for, its operands cut to their fields; R79 gives the pseudo-commands'
expansions. Meant for a well-formed command: `assemble` is the checked form. -/
def Asm.expand : Asm → Instr
  | .nop => .nop
  | .gfAdd a b | .gfSub a b => .gfAdd (BitVec.ofNat 8 a) (BitVec.ofNat 8 b)
  | .gfMul a b => .gfMul (BitVec.ofNat 8 a) (BitVec.ofNat 8 b)
  | .gfDiv a b => .gfDiv (BitVec.ofNat 8 a) (BitVec.ofNat 8 b)
  | .gfInv b => .gfDiv 1#8 (BitVec.ofNat 8 b)
  | .gfExp i => .gfExp (BitVec.ofNat 16 i)
  | .gfLog v => .gfLog (BitVec.ofNat 8 v)
  | .cwWr addr data => .cwWr (BitVec.ofNat 8 addr) (BitVec.ofNat 8 data)
  | .cwRd addr => .cwRd (BitVec.ofNat 8 addr)
  | .fmWr addr f => .fmWr (BitVec.ofNat 8 addr) (decide (f = 1))
  | .fmFix addr => .fmWr (BitVec.ofNat 8 addr) true
  | .fmFree addr => .fmWr (BitVec.ofNat 8 addr) false
  | .fmRd addr => .fmRd (BitVec.ofNat 8 addr)
  | .setLen n known => .setLen (BitVec.ofNat 8 n) (BitVec.ofNat 8 known)
  | .eraseFill => .eraseFill
  | .clrStatus => .clrStatus

/-- Assemble a command, or reject it rather than truncate an operand (R78). -/
def assemble (c : Asm) : Option Instr :=
  if c.wellFormed then some c.expand else none

end Sys2Proof
end

