-- ==== Sys2Proof/Decode.lean ====
section
/-! DEFINITION. Decoding a command word, total on every word and rejecting by name, and after it the encoder
(30_encoding.md R70 to R77). -/

namespace Sys2Proof

/-- Why a word is no command. Both raise IllegalCommand when the word is accepted (R75, R76). -/
inductive DecodeError where
  /-- OP is 0xD, 0xE or 0xF (R75). -/
  | reservedOpcode
  /-- OP is defined and a reserved bit is 1 (R76). -/
  | reservedBits
  /-- Fewer than four bytes were given to `decodeBytes`; no word of R70 is that short. -/
  | truncated
  deriving DecidableEq, Repr

/-! ### The frame (R71) -/

/-- OP, bits 31:28. -/
def Word.op (w : Word) : BitVec 4 := w.extractLsb' 28 4

/-- FB, bits 23:16. -/
def Word.fb (w : Word) : Byte := w.extractLsb' 16 8

/-- FA, bits 15:0. -/
def Word.fa (w : Word) : BitVec 16 := w.extractLsb' 0 16

/-- FA[7:0], the 8-bit first operand. -/
def Word.fa8 (w : Word) : Byte := w.extractLsb' 0 8

/-- FB[0], the flag of format FAF. -/
def Word.flag (w : Word) : Bool := w.getLsbD 16

/-! ### The opcode map (R74) -/

/-- A row's `mask`: a 1 at every bit the decoder checks. -/
def Instr.rowMask : Instr → Word
  | .nop | .eraseFill | .clrStatus => 0xFFFFFFFF#32
  | .gfAdd _ _ | .gfMul _ _ | .gfDiv _ _ | .cwWr _ _ | .setLen _ _ => 0xFF00FF00#32
  | .gfExp _ => 0xFFFF0000#32
  | .gfLog _ | .cwRd _ | .fmRd _ => 0xFFFFFF00#32
  | .fmWr _ _ => 0xFFFEFF00#32

/-- A row's `match`: the word with every operand bit 0. -/
def Instr.rowMatch : Instr → Word
  | .nop => 0x00000000#32
  | .gfAdd _ _ => 0x10000000#32
  | .gfMul _ _ => 0x20000000#32
  | .gfDiv _ _ => 0x30000000#32
  | .gfExp _ => 0x40000000#32
  | .gfLog _ => 0x50000000#32
  | .cwWr _ _ => 0x60000000#32
  | .cwRd _ => 0x70000000#32
  | .fmWr _ _ => 0x80000000#32
  | .fmRd _ => 0x90000000#32
  | .setLen _ _ => 0xA0000000#32
  | .eraseFill => 0xB0000000#32
  | .clrStatus => 0xC0000000#32

/-- Whether a word selects a command's row: `(w & mask) == match` (R74). -/
def Instr.selectedBy (i : Instr) (w : Word) : Bool := w &&& i.rowMask == i.rowMatch

/-- The command an opcode names, its operands taken from the fields of its format (R72, R73); `none` for the
reserved opcodes 0xD, 0xE and 0xF (R75). The reserved bits are not looked at here. -/
def decodeFields (w : Word) : Option Instr :=
  match w.op.toNat with
  | 0x0 => some .nop
  | 0x1 => some (.gfAdd w.fa8 w.fb)
  | 0x2 => some (.gfMul w.fa8 w.fb)
  | 0x3 => some (.gfDiv w.fa8 w.fb)
  | 0x4 => some (.gfExp w.fa)
  | 0x5 => some (.gfLog w.fa8)
  | 0x6 => some (.cwWr w.fa8 w.fb)
  | 0x7 => some (.cwRd w.fa8)
  | 0x8 => some (.fmWr w.fa8 w.flag)
  | 0x9 => some (.fmRd w.fa8)
  | 0xA => some (.setLen w.fa8 w.fb)
  | 0xB => some .eraseFill
  | 0xC => some .clrStatus
  | _ => none

/-- Decode a command word, in the order of R182: first the opcode, then the reserved bits of its row. -/
def decode (w : Word) : Except DecodeError Instr :=
  match decodeFields w with
  | none => .error .reservedOpcode
  | some i => if i.selectedBy w then .ok i else .error .reservedBits

/-! ### Bytes (20_memory.md R53) -/

/-- The four bytes of a word on a byte-addressed bus, bit 0 in the byte at the lowest address (R53). -/
def wordBytes (w : Word) : List Byte :=
  [w.extractLsb' 0 8, w.extractLsb' 8 8, w.extractLsb' 16 8, w.extractLsb' 24 8]

/-- The word that four bytes make, the first byte lowest (R53). -/
def bytesWord (b0 b1 b2 b3 : Byte) : Word :=
  b3.setWidth 32 <<< 24 ||| b2.setWidth 32 <<< 16 ||| b1.setWidth 32 <<< 8 ||| b0.setWidth 32

/-- Decode the command at the head of a list of bytes. A command is always one word, four bytes (R70). -/
def decodeBytes : List Byte → Except DecodeError (Instr × List Byte)
  | b0 :: b1 :: b2 :: b3 :: rest =>
    match decode (bytesWord b0 b1 b2 b3) with
    | .ok i => .ok (i, rest)
    | .error e => .error e
  | _ => .error .truncated

/-- The command word whose bits are the low `nbits` bits of `w`, every bit above them 0. -/
def tableWord (nbits w : Nat) : Word := BitVec.ofNat 32 (w % 2 ^ nbits)

/-- The instruction the decoder reads from the bytes of a table row's word. -/
def decodeTableWord (nbits w : Nat) : Option Instr :=
  match decodeBytes (wordBytes (tableWord nbits w)) with
  | .ok (i, _) => some i
  | .error _ => none

/-! ### The encoder -/

/-- `word = (OP << 28) | (FB << 16) | FA` (R74), with RSV = 0 (R71). -/
def frame (op : BitVec 4) (fb : Byte) (fa : BitVec 16) : Word :=
  op.setWidth 32 <<< 28 ||| fb.setWidth 32 <<< 16 ||| fa.setWidth 32

/-- The word of a command (R72, R74). -/
def encode : Instr → Word
  | .nop => frame 0x0#4 0#8 0#16
  | .gfAdd a b => frame 0x1#4 b (a.setWidth 16)
  | .gfMul a b => frame 0x2#4 b (a.setWidth 16)
  | .gfDiv a b => frame 0x3#4 b (a.setWidth 16)
  | .gfExp i => frame 0x4#4 0#8 i
  | .gfLog v => frame 0x5#4 0#8 (v.setWidth 16)
  | .cwWr addr data => frame 0x6#4 data (addr.setWidth 16)
  | .cwRd addr => frame 0x7#4 0#8 (addr.setWidth 16)
  | .fmWr addr f => frame 0x8#4 ((BitVec.ofBool f).setWidth 8) (addr.setWidth 16)
  | .fmRd addr => frame 0x9#4 0#8 (addr.setWidth 16)
  | .setLen n known => frame 0xA#4 known (n.setWidth 16)
  | .eraseFill => frame 0xB#4 0#8 0#16
  | .clrStatus => frame 0xC#4 0#8 0#16

end Sys2Proof
end

