-- ==== Sys2Proof/Machine/State.lean ====
section
/-! DEFINITION. The state of the machine as plain data, the reasons a run stops, and the state right after reset
(10_state.md R20 to R37). -/

namespace Sys2Proof.Machine

/-- The block's sequencing state (R32). -/
inductive Phase where
  /-- The block accepts commands. -/
  | idle
  /-- An accepted ERASE_FILL has not yet completed. -/
  | solving
  /-- An Unsolvable outcome has occurred. -/
  | fatal
  deriving DecidableEq, Repr

/-- The outcomes a command or the solver leaves in `STATUS.ECODE` (60_exceptions.md R201). Codes 6 to 15 are never
produced, so the type has the six defined values only (93_implementation_defined.md I6). -/
inductive OutcomeCode where
  | ok
  | invalidArgument
  | divisionByZero
  | fieldDomainError
  | unsolvable
  | illegalCommand
  deriving DecidableEq, Repr

/-- A host address as the block sees it (20_memory.md R50): an offset into the register window, or an address
outside the window. `BusAddr.ofAddress` in Bus.lean takes a host address to it (log entry 6). -/
inductive BusAddr where
  /-- `BASE + offset`, with offset below 0x20. -/
  | window (offset : BitVec 5)
  /-- Any other host address. -/
  | outside (address : Nat)
  deriving DecidableEq, Repr

/-- One step of the interleaving still to come: a host interaction (70_reset_and_hazards.md R239), or a turn of the
solver (20_memory.md R58). -/
inductive Event where
  /-- `MemRead(addr, size)`, the size in bytes. -/
  | read (size : Nat) (addr : BusAddr)
  /-- `MemWrite(addr, size, value)`, the size in bytes. -/
  | write (size : Nat) (addr : BusAddr) (value : Word)
  /-- The host or the platform asserts reset (R230). -/
  | reset
  /-- The solver is given its turn: it completes an accepted ERASE_FILL, and does nothing otherwise. -/
  | solver
  deriving DecidableEq, Repr

/-- A buffer of the block: a list of (index, value) pairs (a pair of `Memory Byte` is a `Host.Cell`). The canonical form is `Memory.wf` (Ops.lean). An index
that is not listed has not been written since reset (R35; log entry 4). -/
abbrev Memory (α : Type) := List (Nat × α)

/-- The state of GF256-EF and of the interleaving around it. The two field tables (R20, R21), `CONFIG` (R29) and
`GEOM` (R30) are constants and views, and `CMD` holds nothing (R31); the solver's working state is a local of its
one step (R34). -/
structure State where
  /-- `CW`, the codeword buffer, entry by entry (R23), with its written bits (R35). -/
  cw : Memory Byte
  /-- `FM`, the fixed-mask buffer, `true` for fixed (R24), with its written bits (R35). -/
  fm : Memory Bool
  /-- `N`, the codeword length (R25). -/
  n : Byte
  /-- `KNOWN`, the number of fixed positions (R26). -/
  known : Byte
  /-- `RESULT` (R27). -/
  result : Byte
  /-- `STATUS.OVERRUN` (R28). -/
  overrun : Bool
  /-- `STATUS.STICKY` (R28). -/
  sticky : Bool
  /-- `STATUS.ECODE` (R28). -/
  ecode : OutcomeCode
  /-- `phase` (R32); `STATUS.BUSY` and `STATUS.FATAL` are read from it. -/
  phase : Phase
  /-- The model's own field: the interleaving of host interactions and solver turns still to come, next first
  (R58, R59; log entry 1). -/
  schedule : List Event
  /-- The model's own field: what the host's reads have returned, newest first (R55, R239; log entry 3). -/
  hostReads : List Word
  deriving DecidableEq, Repr

/-- The model-only faults (60_exceptions.md R210). They are no outcomes of the hardware. -/
inductive Fault where
  /-- Raised by CW_RD, FM_RD, ERASE_FILL and the solver step when a rule reads a `CW` or `FM` entry not written
  since reset (R35). Safe: the hardware goes on with an unspecified byte, of which nothing can then be proved. -/
  | unwrittenRead
  /-- Raised by a host access that is not an aligned 32-bit access inside the window (20_memory.md R54, R239).
  Safe: the hardware gives such an access no meaning. -/
  | refusedAccess
  deriving DecidableEq, Repr

/-- Why an instruction has no meaning. -/
inductive Refusal where
  /-- Raised by `exec` for a row that is not modelled. Safe: nothing is said of the instruction. -/
  | notModelled (mnemonic : String)
  deriving DecidableEq, Repr

/-- The three outcomes of one step of this machine. -/
abbrev Result := Host.Outcome State Fault Refusal

/-- The machine right after reset (R37, R230): both buffers unwritten, every register 0, phase Idle. The schedule
and the host's reads are the model's own fields, empty here (DESIGN CHOICE, log entries 3 and 12). -/
def State.reset : State where
  cw := []
  fm := []
  n := 0#8
  known := 0#8
  result := 0#8
  overrun := false
  sticky := false
  ecode := .ok
  phase := .idle
  schedule := []
  hostReads := []

end Sys2Proof.Machine
end

