-- ==== Sys2Proof/Machine/Ops.lean ====
section
/-! DEFINITION. The named operations over the buffers and registers: reading and writing a buffer, the end of a
command (`complete`, and `raise` for every outcome other than OK), and acceptance (20_memory.md R51, 43_control_ops.md
R182, 60_exceptions.md R200). -/

namespace Sys2Proof.Machine

/-! ### Buffers -/

/-- The canonical form of a buffer: indices strictly rising, which is the model's own form (log entry 4), and each within
the buffer (10_state.md R23, R24). -/
abbrev Memory.wf {α : Type} (m : Memory α) : Prop :=
  m.Pairwise (fun x y => x.1 < y.1) ∧ ∀ x ∈ m, x.1 < Config.nMax

/-- What an index that is not listed reads as: nothing, because it has not been written since reset (R35). -/
def Memory.unlisted {α : Type} : Option α := none

/-- Read one entry. -/
def Memory.read {α : Type} : Memory α → Nat → Option α
  | [], _ => Memory.unlisted
  | (j, v) :: rest, i => if j = i then some v else Memory.read rest i

/-- The written-since-reset bit of an entry (R35). -/
def Memory.written {α : Type} (m : Memory α) (i : Nat) : Bool := (m.read i).isSome

/-- Write one entry, keeping the indices in order; the entry is then written (R35). -/
def Memory.write {α : Type} : Memory α → Nat → α → Memory α
  | [], i, v => [(i, v)]
  | (j, w) :: rest, i, v =>
    if i < j then (i, v) :: (j, w) :: rest
    else if i = j then (i, v) :: rest
    else (j, w) :: Memory.write rest i v

/-- Read the entries at a list of indices; `none` if any of them is unwritten. -/
def Memory.readAll {α : Type} (m : Memory α) : List Nat → Option (List α)
  | [] => some []
  | i :: is =>
    match m.read i, m.readAll is with
    | some v, some vs => some (v :: vs)
    | _, _ => none

/-- Write a list of (index, value) pairs, in order. -/
def Memory.writeAll {α : Type} (m : Memory α) : List (Nat × α) → Memory α
  | [] => m
  | (i, v) :: rest => (m.write i v).writeAll rest

/-! ### The end of a command -/

/-- `complete` (R182): ECODE becomes OK; STICKY and OVERRUN stay. -/
def complete (s : State) : State := { s with ecode := .ok }

/-- `raise <Outcome>` (R200), the one way a failure is reported: ECODE takes the code and STICKY becomes 1, and no
other state changes. It is what stands for taking an exception: there is no trap, vector or return (R212). -/
def raise (c : OutcomeCode) (s : State) : State := { s with ecode := c, sticky := true }

/-- The end of a command that computes a RESULT: a value completes it and is stored (R27); an outcome is raised, and
RESULT keeps its old value (R200). -/
def answer (r : Except OutcomeCode Byte) (s : State) : Result :=
  match r with
  | .ok v => .next (complete { s with result := v })
  | .error c => .next (raise c s)

/-! ### Acceptance -/

/-- A command written while Solving: dropped, with OVERRUN set (60_exceptions.md R207). -/
def drop (s : State) : State := { s with overrun := true }

/-- Acceptance (R182, in the order of R209): in phase Fatal the command is ignored, in phase Solving it is dropped,
and in phase Idle it runs. -/
def accept (s : State) (run : State → Result) : Result :=
  match s.phase with
  | .fatal => .next s
  | .solving => .next (drop s)
  | .idle => run s

/-! ### Constant and derived registers -/

/-- `CONFIG` (10_state.md R29): N_MAX in bits 31:24, ALPHA in 23:16, PRIM_POLY in 15:0. -/
def configWord : Word :=
  BitVec.ofNat 32 Config.nMax <<< 24 ||| Config.alpha.setWidth 32 <<< 16 ||| Config.primPoly.setWidth 32

/-- `GEOM` (10_state.md R30): N in bits 7:0, KNOWN in 15:8, and 0 above. -/
def geomWord (s : State) : Word := s.known.setWidth 32 <<< 8 ||| s.n.setWidth 32

/-- `RESULT` as the host reads it, zero-extended (10_state.md R27). -/
def resultWord (s : State) : Word := s.result.setWidth 32

end Sys2Proof.Machine
end

