-- ==== Sys2Proof/Machine/Operands.lean ====
section
/-! DEFINITION. What the commands do with their operands (30_encoding.md R73): every operand is an unsigned integer
taken as it stands, a buffer index is checked against N_MAX, and the GF_EXP index is the 16-bit field itself. The
fields are taken from the word in Decode.lean. -/

namespace Sys2Proof.Machine

/-- Whether a buffer index is inside the buffers: below N_MAX, whatever N is (20_memory.md R51, decision D13). -/
def indexInRange (addr : Byte) : Bool := decide (addr.toNat < Config.nMax)

/-- Run a buffer command on its index, or raise InvalidArgument (41_buffer_ops.md R131 to R134). -/
def withIndex (addr : Byte) (s : State) (run : Nat → State → Result) : Result :=
  if indexInRange addr then run addr.toNat s else .next (raise .invalidArgument s)

/-- The value an entry gives a read, or the model's fault for an entry not written since reset (10_state.md R35). -/
def withEntry {α : Type} (v : Option α) (run : α → Result) : Result :=
  match v with
  | some v => run v
  | none => .fault .unwrittenRead

/-- `zext_8` of a mask flag (R134). -/
def flagByte (f : Bool) : Byte := (BitVec.ofBool f).setWidth 8

/-- The exponent of GF_EXP: its 16-bit index as an unsigned integer, which `gf_exp` reduces mod 255 (R73, R111). -/
def expIndex (i : BitVec 16) : Nat := i.toNat

end Sys2Proof.Machine
end

