-- ==== Sys2Proof/Machine/Flags.lean ====
section
/-! DEFINITION. The fields of `STATUS` and the word the host reads (10_state.md R28, 60_exceptions.md R201). -/

namespace Sys2Proof.Machine

/-- The four-bit code of an outcome (R201). -/
def OutcomeCode.bits : OutcomeCode → BitVec 4
  | .ok => 0#4
  | .invalidArgument => 1#4
  | .divisionByZero => 2#4
  | .fieldDomainError => 3#4
  | .unsolvable => 4#4
  | .illegalCommand => 5#4

/-- `STATUS.BUSY` (R28, R32): 1 while phase is Solving. -/
def busy (s : State) : Bool := decide (s.phase = .solving)

/-- `STATUS.FATAL` (R28, R32): 1 while phase is Fatal. -/
def fatal (s : State) : Bool := decide (s.phase = .fatal)

/-- `STATUS` (R28): BUSY, FATAL, OVERRUN and STICKY in bits 0 to 3, ECODE in bits 7:4, and 0 above. -/
def statusWord (s : State) : Word :=
  s.ecode.bits.setWidth 32 <<< 4 ||| (BitVec.ofBool s.sticky).setWidth 32 <<< 3
    ||| (BitVec.ofBool s.overrun).setWidth 32 <<< 2 ||| (BitVec.ofBool (fatal s)).setWidth 32 <<< 1
    ||| (BitVec.ofBool (busy s)).setWidth 32

/-- What CLR_STATUS clears (43_control_ops.md R181): OVERRUN and STICKY. -/
def clearSticky (s : State) : State := { s with overrun := false, sticky := false }

end Sys2Proof.Machine
end

