-- ==== Sys2Proof/Machine/BufferOps.lean ====
section
/-! DEFINITION. The codeword and mask buffer commands (41_buffer_ops.md R130 to R134). -/

namespace Sys2Proof.Machine

/-- CW_WR (R131): the index is checked against N_MAX, not N; the entry is then written. -/
def execCwWr (addr data : Byte) (s : State) : Result :=
  accept s fun s => withIndex addr s fun j s => .next (complete { s with cw := s.cw.write j data })

/-- CW_RD (R132). -/
def execCwRd (addr : Byte) (s : State) : Result :=
  accept s fun s => withIndex addr s fun j s => withEntry (s.cw.read j) fun v => answer (.ok v) s

/-- FM_WR (R133): `true` marks the position fixed. -/
def execFmWr (addr : Byte) (f : Bool) (s : State) : Result :=
  accept s fun s => withIndex addr s fun j s => .next (complete { s with fm := s.fm.write j f })

/-- FM_RD (R134): RESULT is 0x00 or 0x01. -/
def execFmRd (addr : Byte) (s : State) : Result :=
  accept s fun s => withIndex addr s fun j s => withEntry (s.fm.read j) fun f => answer (.ok (flagByte f)) s

/-- SET_LEN (R130): any pair of values is stored; ERASE_FILL checks the pair. -/
def execSetLen (n known : Byte) (s : State) : Result :=
  accept s fun s => .next (complete { s with n := n, known := known })

end Sys2Proof.Machine
end

