-- ==== Sys2Proof/Machine/ControlOps.lean ====
section
/-! DEFINITION. The control commands (43_control_ops.md R180, R181). -/

namespace Sys2Proof.Machine

/-- NOP (R180): it completes, and so overwrites ECODE but not STICKY. -/
def execNop (s : State) : Result := accept s fun s => .next (complete s)

/-- CLR_STATUS (R181). -/
def execClrStatus (s : State) : Result := accept s fun s => .next (complete (clearSticky s))

end Sys2Proof.Machine
end

