-- ==== Sys2Proof/Machine/Solver.lean ====
section
/-! DEFINITION. The solver's one atomic step: the parity-check system over GF(256), Gaussian elimination with partial
pivoting, back-substitution and write-back (42_erasure_fill.md R151 to R158). The working state of R34 is local to it. -/

namespace Sys2Proof.Machine

/-! ### The inputs (R151) -/

/-- The positions of a mask that carry the given flag, in ascending order: `true` for the fixed positions, `false`
for the free list of R151. -/
def positions (flag : Bool) (mask : List Bool) : List Nat :=
  (List.range mask.length).filter fun j => mask.getD j (!flag) == flag

/-- The mask `FM[0..N-1]`; `none` if any of its entries is unwritten (R35). -/
def maskOf (s : State) : Option (List Bool) := s.fm.readAll (List.range s.n.toNat)

/-- The bytes of `CW` at the fixed positions of a mask; `none` if any of them is unwritten (R35). Free positions are
not read (R162). -/
def fixedBytes (mask : List Bool) (s : State) : Option (List Byte) := s.cw.readAll (positions true mask)

/-- The erasure count `m = N - KNOWN` (R151). -/
def erasureCount (s : State) : Nat := s.n.toNat - s.known.toNat

/-! ### The augmented matrix (R153) -/

/-- A row of the augmented matrix: the entries of its columns still in play, and the augmented entry. -/
structure Equation where
  coef : List Byte
  rhs : Byte
  deriving DecidableEq, Repr

/-- A row whose columns are all past: what an index outside the matrix stands for. -/
def emptyEquation : Equation := ⟨[], 0#8⟩

/-- The weight of position `pos` in parity check `i`: α^(i·(n-1-pos)) (R152, 20_memory.md R52). -/
def weight (n i pos : Nat) : Byte := gfExp (i * (n - 1 - pos))

/-- Row `i` of the matrix (R153): step 1 gives the free positions' weights, step 2 the XOR of the fixed terms. -/
def equation (n : Nat) (free : List Nat) (fixed : List (Nat × Byte)) (i : Nat) : Equation where
  coef := free.map (weight n i)
  rhs := xorSum (fixed.map fun p => gfMul p.2 (weight n i p.1))

/-- The matrix of R153, `m` rows. -/
def system (n m : Nat) (free : List Nat) (fixed : List (Nat × Byte)) : List Equation :=
  (List.range m).map (equation n free fixed)

/-! ### Elimination (R154 to R156) -/

/-- The entry of a row in the current column. -/
def Equation.lead (e : Equation) : Byte := e.coef.headD 0#8

/-- The scan of R154: `best` is the largest entry so far, at row `p`; `r` is the next row. The comparison is strict,
so the lowest-numbered of equal rows wins (decision D15), and it compares stored bytes as unsigned (D16). -/
def pivotScan (best : Byte) (p r : Nat) : List Byte → Nat
  | [] => p
  | x :: xs => if best < x then pivotScan x r (r + 1) xs else pivotScan best p (r + 1) xs

/-- The pivot row of a column, counted from the first row in play (R154). -/
def pivotIndex : List Byte → Nat
  | [] => 0
  | x :: xs => pivotScan x 0 1 xs

/-- The rows below the pivot row after rows `p` and 0 of those in play have been exchanged (R155). -/
def rowsBelow (rows : List Equation) (p : Nat) : List Equation := (rows.set p (rows.headD emptyEquation)).tail

/-- Eliminate the current column from a row below the pivot row, all through the augmented column (R155). A row whose
entry is 0 already is skipped. The column, now 0, is left behind. -/
def reduceRow (pivot : Equation) (h : pivot.lead ≠ 0#8) (e : Equation) : Equation :=
  if e.lead = 0#8 then ⟨e.coef.tail, e.rhs⟩
  else
    let f := gfQuot e.lead pivot.lead h
    ⟨List.zipWith (fun x y => gfAdd x (gfMul f y)) e.coef.tail pivot.coef.tail, gfAdd e.rhs (gfMul f pivot.rhs)⟩

/-- A row of the triangular matrix: its diagonal entry, which is not 0 (R156), the entries to its right, and the
augmented entry. -/
structure PivotRow where
  diag : Byte
  diag_ne : diag ≠ 0#8
  right : List Byte
  rhs : Byte

/-- Elimination from the current column on (R154 to R156), with `k` columns left: the triangular matrix, or `none`
when the pivot found is 0 (Unsolvable). -/
def eliminate : Nat → List Equation → Option (List PivotRow)
  | 0, _ => some []
  | k + 1, rows =>
    let p := pivotIndex (rows.map Equation.lead)
    let pivot := rows.getD p emptyEquation
    if h : pivot.lead = 0#8 then none
    else
      (eliminate k ((rowsBelow rows p).map (reduceRow pivot h))).map
        fun below => ⟨pivot.lead, h, pivot.coef.tail, pivot.rhs⟩ :: below

/-! ### Back-substitution (R157) -/

/-- The right-hand side less the already-solved terms: it starts from the augmented entry (R157, 90_conflicts.md C4). -/
def substituted (row : PivotRow) (xs : List Byte) : Byte := gfAdd row.rhs (xorSum (List.zipWith gfMul row.right xs))

/-- Back-substitution, from the last row to the first (R157). -/
def backSubstitute : List PivotRow → List Byte
  | [] => []
  | row :: below =>
    let xs := backSubstitute below
    gfQuot (substituted row xs) row.diag row.diag_ne :: xs

/-- The solved values `X`, or `none` for Unsolvable. -/
def solve (n m : Nat) (free : List Nat) (fixed : List (Nat × Byte)) : Option (List Byte) :=
  (eliminate m (system n m free fixed)).map backSubstitute

/-! ### The step (R158) -/

/-- The successful end of the step: the solved bytes are written, the phase is Idle and ECODE is OK, together. -/
def writeBack (free : List Nat) (xs : List Byte) (s : State) : State :=
  complete { s with cw := s.cw.writeAll (free.zip xs), phase := .idle }

/-- The Unsolvable end of the step (R156): `CW` is not written, and the phase is Fatal. -/
def unsolvable (s : State) : State := raise .unsolvable { s with phase := .fatal }

/-- The solver step of an accepted ERASE_FILL (R158). -/
def solverStep (s : State) : Result :=
  withEntry (maskOf s) fun mask =>
    withEntry (fixedBytes mask s) fun bytes =>
      match solve s.n.toNat (erasureCount s) (positions false mask) ((positions true mask).zip bytes) with
      | some xs => .next (writeBack (positions false mask) xs s)
      | none => .next (unsolvable s)

/-- The solver agent's turn: its step is enabled only while phase is Solving (R158). -/
def solverTurn (s : State) : Result := if s.phase = .solving then solverStep s else .next s

end Sys2Proof.Machine
end

