-- ==== Sys2Proof/Machine/ErasureOps.lean ====
section
/-! DEFINITION. ERASE_FILL's acceptance (42_erasure_fill.md R150); the solver step that completes it is in
Solver.lean. -/

namespace Sys2Proof.Machine

/-- An ERASE_FILL whose inputs are in order: the phase becomes Solving and ECODE is OK (R150). -/
def beginSolve (s : State) : State := complete { s with phase := .solving }

/-- The checks of R150, in its order. -/
def startErase (s : State) : Result :=
  if s.n.toNat = 0 ∨ Config.nMax < s.n.toNat then .next (raise .invalidArgument s)
  else if s.known.toNat = 0 then .next (raise .invalidArgument s)
  else if s.n.toNat ≤ s.known.toNat then .next (raise .invalidArgument s)
  else
    withEntry (maskOf s) fun mask =>
      if mask.count true = s.known.toNat then withEntry (fixedBytes mask s) fun _ => .next (beginSolve s)
      else .next (raise .invalidArgument s)

/-- ERASE_FILL (R150). -/
def execEraseFill (s : State) : Result := accept s startErase

end Sys2Proof.Machine
end

