-- ==== Sys2Proof/Machine/FieldOps.lean ====
section
/-! DEFINITION. The field-operation commands (40_field_ops.md R108 to R112). -/

namespace Sys2Proof.Machine

/-- GF_ADD (R108): RESULT is the XOR of the operands. -/
def execGfAdd (a b : Byte) (s : State) : Result := accept s (answer (.ok (gfAdd a b)))

/-- GF_MUL (R109): multiplying by zero is defined and gives 0. -/
def execGfMul (a b : Byte) (s : State) : Result := accept s (answer (.ok (gfMul a b)))

/-- GF_DIV (R110): DivisionByZero when b = 0, whatever a is. -/
def execGfDiv (a b : Byte) (s : State) : Result := accept s (answer (gfDiv a b))

/-- GF_EXP (R111): every index is legal. -/
def execGfExp (i : BitVec 16) (s : State) : Result := accept s (answer (.ok (gfExp (expIndex i))))

/-- GF_LOG (R112): FieldDomainError when v = 0. -/
def execGfLog (v : Byte) (s : State) : Result := accept s (answer (gfLog v))

end Sys2Proof.Machine
end

