-- ==== Sys2Proof/Machine/Dispatch.lean ====
section
/-! DEFINITION. What each command does: one call of its meaning for each row of the opcode map
(30_encoding.md R74, 43_control_ops.md R182). -/

namespace Sys2Proof.Machine

/-- Execute the rule named by a command's row (R182). -/
def exec (i : Instr) (s : State) : Host.Outcome State Fault Refusal :=
  match i with
  | .nop => Sys2Proof.Machine.execNop s
  | .gfAdd a b => Sys2Proof.Machine.execGfAdd a b s
  | .gfMul a b => Sys2Proof.Machine.execGfMul a b s
  | .gfDiv a b => Sys2Proof.Machine.execGfDiv a b s
  | .gfExp e => Sys2Proof.Machine.execGfExp e s
  | .gfLog v => Sys2Proof.Machine.execGfLog v s
  | .cwWr addr data => Sys2Proof.Machine.execCwWr addr data s
  | .cwRd addr => Sys2Proof.Machine.execCwRd addr s
  | .fmWr addr f => Sys2Proof.Machine.execFmWr addr f s
  | .fmRd addr => Sys2Proof.Machine.execFmRd addr s
  | .setLen n known => Sys2Proof.Machine.execSetLen n known s
  | .eraseFill => Sys2Proof.Machine.execEraseFill s
  | .clrStatus => Sys2Proof.Machine.execClrStatus s

end Sys2Proof.Machine
end

