-- ==== Sys2Proof/Machine/Bus.lean ====
section
/-! DEFINITION. The host's interactions (20_memory.md R50 to R59, 70_reset_and_hazards.md R230, R239): reading and
writing the registers of the window, and reset. -/

namespace Sys2Proof.Machine

/-- The registers of the window (R50). -/
inductive Reg where
  | cmd
  | result
  | status
  | config
  | geom
  | reserved
  deriving DecidableEq, Repr

/-- A host address as the block sees it: an offset from BASE inside the window, or outside it (R10, R50). -/
def BusAddr.ofAddress (a : Nat) : BusAddr :=
  if Config.base ≤ a ∧ a < Config.base + Config.windowSize then .window (BitVec.ofNat 5 (a - Config.base))
  else .outside a

/-- The register an access names: an aligned 32-bit access inside the window names the one at its offset (R50); any
other access names none (R54). BASE is a multiple of 0x20, so an address is aligned exactly if its offset is. -/
def registerAt (size : Nat) (addr : BusAddr) : Option Reg :=
  match addr with
  | .outside _ => none
  | .window offset =>
    if size = 4 then
      match offset.toNat with
      | 0x00 => some .cmd
      | 0x04 => some .result
      | 0x08 => some .status
      | 0x0C => some .config
      | 0x10 => some .geom
      | 0x14 => some .reserved
      | 0x18 => some .reserved
      | 0x1C => some .reserved
      | _ => none
    else none

/-- What a register reads as (R55): CMD and the reserved offsets read as 0. -/
def registerValue (r : Reg) (s : State) : Word :=
  match r with
  | .cmd => 0#32
  | .result => resultWord s
  | .status => statusWord s
  | .config => configWord
  | .geom => geomWord s
  | .reserved => 0#32

/-- A host read (R55): it returns the register's value to the host and changes nothing of the block. -/
def hostRead (size : Nat) (addr : BusAddr) (s : State) : Result :=
  match registerAt size addr with
  | some r => .next { s with hostReads := registerValue r s :: s.hostReads }
  | none => .fault .refusedAccess

/-- A word that is no command (R75, R76): when accepted, it raises IllegalCommand and changes nothing else. -/
def illegalCommand (s : State) : Result := accept s fun s => .next (raise .illegalCommand s)

/-- A write to `CMD` (R182): the word is decoded and the command it names runs. Each meaning, and `illegalCommand`,
begins with R182's acceptance (log entry 10). -/
def command (w : Word) (s : State) : Result :=
  match decode w with
  | .ok i => exec i s
  | .error _ => illegalCommand s

/-- A host write (R56): a write to `CMD` issues a command, and a write to any other register is ignored. -/
def hostWrite (size : Nat) (addr : BusAddr) (value : Word) (s : State) : Result :=
  match registerAt size addr with
  | some .cmd => command value s
  | some _ => .next s
  | none => .fault .refusedAccess

/-- The reset event (R230): every piece of the block's state takes its reset value. What the host has read, and what
is still to come, are the host's and stay (log entry 16). -/
def assertReset (s : State) : State := { State.reset with schedule := s.schedule, hostReads := s.hostReads }

/-- One event of the interleaving (R15, R59). -/
def runEvent (e : Event) (s : State) : Result :=
  match e with
  | .read size addr => hostRead size addr s
  | .write size addr value => hostWrite size addr value s
  | .reset => .next (assertReset s)
  | .solver => solverTurn s

/-- The state with its next event taken off the schedule. -/
def popEvent (rest : List Event) (s : State) : State := { s with schedule := rest }

/-- The event that writes a command word to `CMD` (R31, R78 `write <command>`). -/
def cmdWrite (w : Word) : Event := .write 4 (.window 0x00#5) w

end Sys2Proof.Machine
end

