-- ==== Sys2Proof/Machine/Step.lean ====
section
/-! DEFINITION. One step of the machine: the next event of the interleaving, or the solver's turn when the host has
nothing more to do. -/

namespace Sys2Proof.Machine

/-- One step. The next event of the schedule is taken and runs (R59). With the schedule empty, an accepted ERASE_FILL
completes (R58, R237: it does so within finitely many host accesses), and with nothing owed the state stays as it is
(R219, R238; log entry 2). -/
def step (s : State) : Host.Outcome State Fault Refusal :=
  match s.schedule with
  | [] => solverTurn s
  | e :: rest => runEvent e (popEvent rest s)

/-- The state with the command word `w` (of `nbits` bits, every bit above them 0) as the host's next access, a write to
`CMD`, so that the next step runs it (log entry 12). -/
def State.withFetchWord (s : State) (nbits w : Nat) : State :=
  { s with schedule := cmdWrite (tableWord nbits w) :: s.schedule }

end Sys2Proof.Machine
end

