-- ==== Sys2Proof/Safety.lean ====
section
/-! DEFINITION. The terms claims are made in: what the host may do, what a safe run is, when a program has ended, the
canonical form of the buffers, the inputs ERASE_FILL must find, and the parity checks a codeword satisfies. -/

namespace Sys2Proof.Machine

/-! ### Runs -/

/-- What the host may do (70_reset_and_hazards.md R239): every access is an aligned 32-bit access inside the window;
reset and the solver's turn may come at any time. -/
def Event.allowed : Event → Bool
  | .read size addr => (registerAt size addr).isSome
  | .write size addr _ => (registerAt size addr).isSome
  | .reset => true
  | .solver => true

/-- A run of `k` steps is safe: no step of it stops in a fault (60_exceptions.md R210). -/
def safeRun (k : Nat) (s : State) : Prop := ∃ t, Host.Core.run Sys2Proof.core k s = .next t

/-- A host program has ended (R238): the host has made its last access, and no solver step is owed. -/
abbrev programEnded (s : State) : Prop := s.schedule = [] ∧ s.phase ≠ .solving

/-! ### Invariants -/

/-- Both buffers are in canonical form: indices rising (the model's own form, log entry 4) and below N_MAX (10_state.md
R23, R24). -/
abbrev buffersWf (s : State) : Prop := Memory.wf s.cw ∧ Memory.wf s.fm

/-- Position `j` is marked fixed (R24). -/
def isFixed (s : State) (j : Nat) : Bool := s.fm.read j == some true

/-- The number of positions below N that are marked fixed: `popcount(FM[0..N-1])` when all are written. -/
def fixedCount (s : State) : Nat := ((List.range s.n.toNat).filter (isFixed s)).length

/-- The mask below N has been written (R150). -/
abbrev maskWritten (s : State) : Prop := ∀ j < s.n.toNat, s.fm.written j = true

/-- The bytes at the fixed positions below N have been written (R150). -/
abbrev fixedWritten (s : State) : Prop := ∀ j < s.n.toNat, isFixed s j = true → s.cw.written j = true

/-- The inputs ERASE_FILL must find (42_erasure_fill.md R150, 70_reset_and_hazards.md R233). -/
abbrev inputsReady (s : State) : Prop :=
  0 < s.known.toNat ∧ s.known.toNat < s.n.toNat ∧ s.n.toNat ≤ Config.nMax ∧ maskWritten s ∧
    fixedCount s = s.known.toNat ∧ fixedWritten s

/-- The inputs stay frozen while the block is solving (R161), so what acceptance found holds until the solver step. -/
abbrev solvingReady (s : State) : Prop := s.phase = .solving → inputsReady s

/-! ### Codewords (42_erasure_fill.md R152) -/

/-- The codeword byte at position `j`. Claims that use it take as a premise, or conclude, that the entry is written
(R238). -/
def codeByte (s : State) (j : Nat) : Byte := (s.cw.read j).getD 0#8

/-- The left side of parity check `i` for a word of length `n`: XOR over j of c_j · α^(i·(n-1-j)) (R152). -/
def syndrome (n : Nat) (c : Nat → Byte) (i : Nat) : Byte :=
  xorSum ((List.range n).map fun j => gfMul (c j) (gfExp (i * (n - 1 - j))))

/-- The first `m` parity checks hold: the roots are α^0 to α^(m-1) (R152). -/
def parityHolds (n m : Nat) (c : Nat → Byte) : Prop := ∀ i < m, syndrome n c i = 0#8

end Sys2Proof.Machine
end

