-- ==== Sys2Proof/Certificates/Slice0/Obligations.lean ====
section
/-! DEFINITION. The statements about GF256-EF, from the numbered rules of spec/. Each docstring names the rule. -/

open Sys2Proof Sys2Proof.Machine

/-! ### The field (40_field_ops.md section 1) -/

/-- R100: EXPT is what the generator gives, entry by entry, and LOGT is its inverse on [0, 254]. -/
def Obligations.TablesAreGenerated : Prop :=
  (∀ i < 256, expt i = generatedExpt i) ∧
    ∀ i < 255, ∃ h : generatedExpt i ≠ 0#8, (logt (generatedExpt i) h).toNat = i

/-- R106: gf_exp and gf_log are inverse to each other; R105: gf_exp has period 255. -/
def Obligations.ExpAndLogAreInverse : Prop :=
  (∀ v : Byte, v ≠ 0#8 → ∃ l, gfLog v = .ok l ∧ l.toNat < 255 ∧ gfExp l.toNat = v) ∧
    (∀ e : Nat, ∃ l, gfLog (gfExp e) = .ok l ∧ l.toNat = e % 255) ∧ ∀ k : Nat, gfExp (255 * k) = 1#8

/-- R103: gf_mul is the product as polynomials, reduced modulo PRIM_POLY. -/
def Obligations.MulIsPolynomialProduct : Prop := ∀ a b : Byte, gfMul a b = polyMul a b

/-- R107: the field laws. -/
def Obligations.FieldLawsHold : Prop :=
  (∀ a b c : Byte, gfAdd (gfAdd a b) c = gfAdd a (gfAdd b c)) ∧ (∀ a b : Byte, gfAdd a b = gfAdd b a) ∧
    (∀ a : Byte, gfAdd a 0#8 = a ∧ gfAdd a a = 0#8) ∧
    (∀ a b c : Byte, gfMul (gfMul a b) c = gfMul a (gfMul b c)) ∧ (∀ a b : Byte, gfMul a b = gfMul b a) ∧
    (∀ a : Byte, gfMul a 1#8 = a ∧ gfMul a 0#8 = 0#8) ∧
    (∀ a b c : Byte, gfMul a (gfAdd b c) = gfAdd (gfMul a b) (gfMul a c)) ∧
    ∀ a b : Byte, gfMul a b = 0#8 ↔ a = 0#8 ∨ b = 0#8

/-- R104: DivisionByZero for b = 0 whatever a is; otherwise the one byte whose product with b is a. -/
def Obligations.DivIsTheUniqueQuotient : Prop :=
  (∀ a : Byte, gfDiv a 0#8 = .error .divisionByZero) ∧
    ∀ a b : Byte, b ≠ 0#8 → ∃ q, gfDiv a b = .ok q ∧ gfMul q b = a ∧ ∀ r, gfMul r b = a → r = q

/-! ### The field-operation commands (40_field_ops.md section 2) -/

/-- R108. -/
def Obligations.GfAddResult : Prop :=
  (∀ (a b : Byte) (s : State), s.phase = .idle →
      exec (.gfAdd a b) s = .next { s with result := a ^^^ b, ecode := .ok }) ∧
    (∀ a b : Byte, (encode (.gfAdd a b)).toNat = 0x1 * 2 ^ 28 + b.toNat * 2 ^ 16 + a.toNat) ∧
    decode 0x10CA0053#32 = .ok (.gfAdd 0x53#8 0xCA#8) ∧ 0x53#8 ^^^ 0xCA#8 = 0x99#8

/-- R109. -/
def Obligations.GfMulResult : Prop :=
  (∀ (a b : Byte) (s : State), s.phase = .idle →
      exec (.gfMul a b) s = .next { s with result := gfMul a b, ecode := .ok }) ∧
    (∀ a : Byte, gfMul a 0#8 = 0#8 ∧ gfMul 0#8 a = 0#8 ∧ gfMul 1#8 a = a) ∧
    (∀ a b : Byte, gfMul a b = gfMul b a) ∧
    (∀ a b : Byte, (encode (.gfMul a b)).toNat = 0x2 * 2 ^ 28 + b.toNat * 2 ^ 16 + a.toNat) ∧
    decode 0x20CA0053#32 = .ok (.gfMul 0x53#8 0xCA#8) ∧ gfMul 0x53#8 0xCA#8 = 0x8F#8

/-- R110: division by zero is raised, with RESULT unchanged; any other division completes. -/
def Obligations.GfDivResult : Prop :=
  (∀ (a : Byte) (s : State), s.phase = .idle →
      exec (.gfDiv a 0#8) s = .next { s with ecode := .divisionByZero, sticky := true }) ∧
    (∀ (a b : Byte) (s : State), s.phase = .idle → b ≠ 0#8 →
      ∃ q, gfDiv a b = .ok q ∧ exec (.gfDiv a b) s = .next { s with result := q, ecode := .ok }) ∧
    (∀ b : Byte, b ≠ 0#8 → gfDiv 0#8 b = .ok 0#8 ∧ gfDiv b b = .ok 1#8) ∧ (∀ a : Byte, gfDiv a 1#8 = .ok a) ∧
    (∀ a b : Byte, (encode (.gfDiv a b)).toNat = 0x3 * 2 ^ 28 + b.toNat * 2 ^ 16 + a.toNat) ∧
    decode 0x30530001#32 = .ok (.gfDiv 0x01#8 0x53#8) ∧ gfDiv 0x01#8 0x53#8 = .ok 0x8C#8 ∧
    gfMul 0x53#8 0x8C#8 = 0x01#8

/-- R111: every 16-bit index is legal, and is reduced mod 255 before the table is read. -/
def Obligations.GfExpResult : Prop :=
  (∀ (i : BitVec 16) (s : State), s.phase = .idle →
      exec (.gfExp i) s = .next { s with result := expt (i.toNat % 255), ecode := .ok }) ∧
    (∀ i : BitVec 16, (encode (.gfExp i)).toNat = 0x4 * 2 ^ 28 + i.toNat) ∧
    (expt (0 % 255) = 0x01#8 ∧ expt (255 % 255) = 0x01#8 ∧ expt (256 % 255) = 0x02#8 ∧ expt (65535 % 255) = 0x01#8) ∧
    decode 0x40000008#32 = .ok (.gfExp 8#16) ∧ expt 8 = 0x1D#8

/-- R112: the logarithm of zero is raised, with RESULT unchanged; any other logarithm completes, in [0, 254]. -/
def Obligations.GfLogResult : Prop :=
  (∀ s : State, s.phase = .idle →
      exec (.gfLog 0#8) s = .next { s with ecode := .fieldDomainError, sticky := true }) ∧
    (∀ (v : Byte) (s : State), s.phase = .idle → v ≠ 0#8 →
      ∃ l, gfLog v = .ok l ∧ l.toNat < 255 ∧ exec (.gfLog v) s = .next { s with result := l, ecode := .ok }) ∧
    (gfLog 0x01#8 = .ok 0x00#8 ∧ gfLog 0x8E#8 = .ok 0xFE#8) ∧
    (∀ v : Byte, (encode (.gfLog v)).toNat = 0x5 * 2 ^ 28 + v.toNat) ∧
    decode 0x50000003#32 = .ok (.gfLog 0x03#8) ∧ gfLog 0x03#8 = .ok 0x19#8

/-- The frame of GF_ADD, GF_MUL, GF_EXP, GF_DIV and GF_LOG, in every phase (40_field_ops.md section 2: none of them
writes CW, FM, N, KNOWN or phase): only RESULT and ECODE may change, STICKY if the command raises, and OVERRUN if it
is dropped. -/
def Obligations.FieldOpsFrame : Prop :=
  ∀ (i : Instr) (s t : State),
    ((∃ a b, i = .gfAdd a b) ∨ (∃ a b, i = .gfMul a b) ∨ (∃ e, i = .gfExp e) ∨ (∃ a b, i = .gfDiv a b) ∨
      ∃ v, i = .gfLog v) →
    exec i s = .next t →
      t.phase = s.phase ∧ t.n = s.n ∧ t.known = s.known ∧ (∀ j, t.cw.read j = s.cw.read j) ∧
      (∀ j, t.fm.read j = s.fm.read j) ∧ t.schedule = s.schedule ∧ t.hostReads = s.hostReads ∧
      (s.phase ≠ .solving → t.overrun = s.overrun) ∧
      (s.phase ≠ .idle → t.result = s.result ∧ t.ecode = s.ecode ∧ t.sticky = s.sticky) ∧
      (s.phase = .idle → (t.ecode = .ok ∧ t.sticky = s.sticky) ∨ (t.ecode ≠ .ok ∧ t.result = s.result)) ∧
      ((∃ a b, i = .gfAdd a b) ∨ (∃ a b, i = .gfMul a b) ∨ (∃ e, i = .gfExp e) → t.sticky = s.sticky)

/-- 40_field_ops.md section 2: the field operations do not read CW, FM, N or KNOWN. Two states that differ only there
have the same RESULT and STATUS afterwards. -/
def Obligations.FieldOpsIgnoreBuffers : Prop :=
  ∀ (i : Instr) (s s' t t' : State),
    ((∃ a b, i = .gfAdd a b) ∨ (∃ a b, i = .gfMul a b) ∨ (∃ e, i = .gfExp e) ∨ (∃ a b, i = .gfDiv a b) ∨
      ∃ v, i = .gfLog v) →
    s'.phase = s.phase → s'.result = s.result → statusWord s' = statusWord s →
    exec i s = .next t → exec i s' = .next t' → t'.result = t.result ∧ statusWord t' = statusWord t

/-! ### The buffer commands (41_buffer_ops.md) -/

/-- R130: any pair is stored as given; nothing else but ECODE changes. -/
def Obligations.SetLenResult : Prop :=
  (∀ (n known : Byte) (s : State), s.phase = .idle →
      exec (.setLen n known) s = .next { s with n := n, known := known, ecode := .ok }) ∧
    (∀ n known : Byte, (encode (.setLen n known)).toNat = 0xA * 2 ^ 28 + known.toNat * 2 ^ 16 + n.toNat) ∧
    decode 0xA0030005#32 = .ok (.setLen 5#8 3#8) ∧
    ∀ s : State, geomWord { s with n := 5#8, known := 3#8 } = 0x00000305#32

/-- R131: an index of N_MAX or above raises InvalidArgument, whatever N is; any other entry is written and every other
entry is as before. -/
def Obligations.CwWrResult : Prop :=
  (∀ (addr data : Byte) (s : State), s.phase = .idle → Config.nMax ≤ addr.toNat →
      exec (.cwWr addr data) s = .next { s with ecode := .invalidArgument, sticky := true }) ∧
    (∀ (addr data : Byte) (s : State), s.phase = .idle → addr.toNat < Config.nMax →
      ∃ cw', exec (.cwWr addr data) s = .next { s with cw := cw', ecode := .ok } ∧
        Memory.read cw' addr.toNat = some data ∧ Memory.written cw' addr.toNat = true ∧
        ∀ j, j ≠ addr.toNat → Memory.read cw' j = s.cw.read j) ∧
    (∀ addr data : Byte, (encode (.cwWr addr data)).toNat = 0x6 * 2 ^ 28 + data.toNat * 2 ^ 16 + addr.toNat) ∧
    decode 0x60200002#32 = .ok (.cwWr 2#8 0x20#8)

/-- R132: InvalidArgument for an index of N_MAX or above; the model's fault UnwrittenRead for an entry not written since
reset; otherwise RESULT is the entry. -/
def Obligations.CwRdResult : Prop :=
  (∀ (addr : Byte) (s : State), s.phase = .idle → Config.nMax ≤ addr.toNat →
      exec (.cwRd addr) s = .next { s with ecode := .invalidArgument, sticky := true }) ∧
    (∀ (addr : Byte) (s : State), s.phase = .idle → addr.toNat < Config.nMax → s.cw.written addr.toNat = false →
      exec (.cwRd addr) s = .fault .unwrittenRead) ∧
    (∀ (addr v : Byte) (s : State), s.phase = .idle → addr.toNat < Config.nMax → s.cw.read addr.toNat = some v →
      exec (.cwRd addr) s = .next { s with result := v, ecode := .ok }) ∧
    (∀ addr : Byte, (encode (.cwRd addr)).toNat = 0x7 * 2 ^ 28 + addr.toNat) ∧
    decode 0x70000001#32 = .ok (.cwRd 1#8)

/-- R133: as CW_WR, for the mask; a word with FB[7:1] other than 0 raises IllegalCommand. -/
def Obligations.FmWrResult : Prop :=
  (∀ (addr : Byte) (f : Bool) (s : State), s.phase = .idle → Config.nMax ≤ addr.toNat →
      exec (.fmWr addr f) s = .next { s with ecode := .invalidArgument, sticky := true }) ∧
    (∀ (addr : Byte) (f : Bool) (s : State), s.phase = .idle → addr.toNat < Config.nMax →
      ∃ fm', exec (.fmWr addr f) s = .next { s with fm := fm', ecode := .ok } ∧
        Memory.read fm' addr.toNat = some f ∧ Memory.written fm' addr.toNat = true ∧
        ∀ j, j ≠ addr.toNat → Memory.read fm' j = s.fm.read j) ∧
    (∀ (addr : Byte) (f : Bool),
      (encode (.fmWr addr f)).toNat = 0x8 * 2 ^ 28 + (if f then 1 else 0) * 2 ^ 16 + addr.toNat) ∧
    (∀ (w : Word) (s : State), s.phase = .idle → w.toNat / 2 ^ 28 = 0x8 → w.toNat / 2 ^ 17 % 2 ^ 7 ≠ 0 →
      command w s = .next { s with ecode := .illegalCommand, sticky := true }) ∧
    decode 0x80000001#32 = .ok (.fmWr 1#8 false)

/-- R134: as CW_RD, for the mask; RESULT is 0x00 or 0x01; after FM_WR, FM_RD gives the flag that was stored. -/
def Obligations.FmRdResult : Prop :=
  (∀ (addr : Byte) (s : State), s.phase = .idle → Config.nMax ≤ addr.toNat →
      exec (.fmRd addr) s = .next { s with ecode := .invalidArgument, sticky := true }) ∧
    (∀ (addr : Byte) (s : State), s.phase = .idle → addr.toNat < Config.nMax → s.fm.written addr.toNat = false →
      exec (.fmRd addr) s = .fault .unwrittenRead) ∧
    (∀ (addr : Byte) (f : Bool) (s : State), s.phase = .idle → addr.toNat < Config.nMax →
      s.fm.read addr.toNat = some f →
      exec (.fmRd addr) s = .next { s with result := if f then 0x01#8 else 0x00#8, ecode := .ok }) ∧
    (∀ (addr : Byte) (f : Bool) (s t : State), s.phase = .idle → addr.toNat < Config.nMax →
      exec (.fmWr addr f) s = .next t →
      exec (.fmRd addr) t = .next { t with result := if f then 0x01#8 else 0x00#8, ecode := .ok }) ∧
    (∀ addr : Byte, (encode (.fmRd addr)).toNat = 0x9 * 2 ^ 28 + addr.toNat) ∧
    decode 0x90000000#32 = .ok (.fmRd 0#8)

/-- R131, R132: what CW_WR stored at any legal index is what a later CW_RD of it gives, across any commands that are
no CW_WR to that index and leave the phase Idle (one such command stands for them all). -/
def Obligations.CwReadsBackWhatWasWritten : Prop :=
  ∀ (addr data : Byte) (i : Instr) (s t u : State), s.phase = .idle → addr.toNat < Config.nMax →
    exec (.cwWr addr data) s = .next t → (∀ d, i ≠ .cwWr addr d) → exec i t = .next u → u.phase = .idle →
    exec (.cwRd addr) u = .next { u with result := data, ecode := .ok }

/-- The frame of CW_WR and FM_WR, in every phase: the one entry addressed may change, and ECODE, STICKY if the index is
out of range, OVERRUN if the command is dropped; RESULT, N, KNOWN, phase and every other entry do not. -/
def Obligations.BufferWritesFrame : Prop :=
  ∀ (addr : Byte) (s t : State),
    ((∃ data, exec (.cwWr addr data) s = .next t) →
      (∀ j, j ≠ addr.toNat → t.cw.read j = s.cw.read j) ∧
      (Config.nMax ≤ addr.toNat ∨ s.phase ≠ .idle → t.cw = s.cw) ∧ t.fm = s.fm ∧ t.result = s.result ∧ t.n = s.n ∧
      t.known = s.known ∧ t.phase = s.phase ∧ t.schedule = s.schedule ∧ t.hostReads = s.hostReads ∧
      (s.phase ≠ .solving → t.overrun = s.overrun) ∧ (s.phase ≠ .idle → t.ecode = s.ecode) ∧
      (t.sticky = s.sticky ∨ s.phase = .idle ∧ Config.nMax ≤ addr.toNat)) ∧
    ((∃ f, exec (.fmWr addr f) s = .next t) →
      (∀ j, j ≠ addr.toNat → t.fm.read j = s.fm.read j) ∧
      (Config.nMax ≤ addr.toNat ∨ s.phase ≠ .idle → t.fm = s.fm) ∧ t.cw = s.cw ∧ t.result = s.result ∧ t.n = s.n ∧
      t.known = s.known ∧ t.phase = s.phase ∧ t.schedule = s.schedule ∧ t.hostReads = s.hostReads ∧
      (s.phase ≠ .solving → t.overrun = s.overrun) ∧ (s.phase ≠ .idle → t.ecode = s.ecode) ∧
      (t.sticky = s.sticky ∨ s.phase = .idle ∧ Config.nMax ≤ addr.toNat))

/-- The frame of CW_RD, FM_RD, SET_LEN, ERASE_FILL, NOP and CLR_STATUS, in every phase: none of them writes an entry of
CW or FM; RESULT is CW_RD's and FM_RD's alone, N and KNOWN are SET_LEN's, the phase is ERASE_FILL's, and STICKY falls
and OVERRUN falls by CLR_STATUS alone. -/
def Obligations.OtherCommandsFrame : Prop :=
  ∀ (i : Instr) (s t : State),
    ((∃ a, i = .cwRd a) ∨ (∃ a, i = .fmRd a) ∨ (∃ n k, i = .setLen n k) ∨ i = .eraseFill ∨ i = .nop ∨
      i = .clrStatus) →
    exec i s = .next t →
      (∀ j, t.cw.read j = s.cw.read j) ∧ (∀ j, t.fm.read j = s.fm.read j) ∧ t.schedule = s.schedule ∧
      t.hostReads = s.hostReads ∧
      ((∃ a, i = .cwRd a) ∨ (∃ a, i = .fmRd a) ∨ t.result = s.result) ∧
      ((∃ n k, i = .setLen n k) ∨ t.n = s.n ∧ t.known = s.known) ∧ (i = .eraseFill ∨ t.phase = s.phase) ∧
      (i = .clrStatus ∨ (s.sticky = true → t.sticky = true) ∧ (s.overrun = true → t.overrun = true)) ∧
      (s.phase = .idle → i ≠ .clrStatus → t.overrun = s.overrun) ∧
      (s.phase = .idle → i ≠ .clrStatus → t.ecode = .ok → t.sticky = s.sticky) ∧
      (s.phase ≠ .idle → t.ecode = s.ecode ∧ t.sticky = s.sticky ∧ t.result = s.result)

/-! ### ERASE_FILL and the solver (42_erasure_fill.md) -/

/-- R150: ERASE_FILL with its inputs in order is accepted. -/
def Obligations.EraseFillIsAccepted : Prop :=
  ∀ s : State, s.phase = .idle → inputsReady s →
    exec .eraseFill s = .next { s with phase := .solving, ecode := .ok }

/-- R150: the checks, each in its place in the order, the word, and what STATUS reads until the solver step and after
it. -/
def Obligations.EraseFillChecksInOrder : Prop :=
  (∀ s : State, s.phase = .idle →
      ((s.n.toNat = 0 ∨ Config.nMax < s.n.toNat) →
        exec .eraseFill s = .next { s with ecode := .invalidArgument, sticky := true }) ∧
      (0 < s.n.toNat → s.n.toNat ≤ Config.nMax →
        (s.known.toNat = 0 → exec .eraseFill s = .next { s with ecode := .invalidArgument, sticky := true }) ∧
        (0 < s.known.toNat → s.n.toNat ≤ s.known.toNat →
          exec .eraseFill s = .next { s with ecode := .invalidArgument, sticky := true }) ∧
        (0 < s.known.toNat → s.known.toNat < s.n.toNat →
          (¬ maskWritten s → exec .eraseFill s = .fault .unwrittenRead) ∧
          (maskWritten s → fixedCount s ≠ s.known.toNat →
            exec .eraseFill s = .next { s with ecode := .invalidArgument, sticky := true }) ∧
          (maskWritten s → fixedCount s = s.known.toNat → ¬ fixedWritten s →
            exec .eraseFill s = .fault .unwrittenRead) ∧
          (maskWritten s → fixedCount s = s.known.toNat → fixedWritten s →
            exec .eraseFill s = .next { s with phase := .solving, ecode := .ok })))) ∧
    encode .eraseFill = 0xB0000000#32 ∧
    (∀ s : State, s.overrun = false → s.sticky = false →
      statusWord { s with phase := .solving, ecode := .ok } = 0x00000001#32 ∧
        statusWord { s with phase := .idle, ecode := .ok } = 0x00000000#32) ∧
    (∀ s t : State, s.phase = .idle → s.overrun = false → s.sticky = false → exec .eraseFill s = .next t →
      t.phase = .solving → statusWord t = 0x00000001#32) ∧
    ∀ s t : State, s.phase = .solving → s.overrun = false → s.sticky = false → solverTurn s = .next t →
      t.phase = .idle → statusWord t = 0x00000000#32

/-- R158: after a successful solver step the fixed positions and those at N and above are as they were, every free
position below N is written where the inputs were as acceptance requires, and FM, N, KNOWN, RESULT, STICKY and OVERRUN are as they were. R156: after Unsolvable, CW is as it
was as well, the phase is Fatal and ECODE and STICKY say so. There is no third end. -/
def Obligations.SolverStepEnds : Prop :=
  ∀ s t : State, s.phase = .solving → solverTurn s = .next t →
    t.fm = s.fm ∧ t.n = s.n ∧ t.known = s.known ∧ t.result = s.result ∧ t.overrun = s.overrun ∧
    t.schedule = s.schedule ∧ t.hostReads = s.hostReads ∧
    (∀ j, s.n.toNat ≤ j ∨ isFixed s j = true → t.cw.read j = s.cw.read j) ∧
    (inputsReady s → t.phase = .idle → ∀ j < s.n.toNat, isFixed s j = false → t.cw.written j = true) ∧
    ((t.phase = .idle ∧ t.ecode = .ok ∧ t.sticky = s.sticky) ∨
      (t.phase = .fatal ∧ t.ecode = .unsolvable ∧ t.sticky = true ∧ t.cw = s.cw))

/-- R160: when the inputs are as acceptance requires, the solver succeeds: Unsolvable is unreachable. -/
def Obligations.UnsolvableIsUnreachable : Prop :=
  ∀ s : State, s.phase = .solving → inputsReady s → ∃ t, solverTurn s = .next t ∧ t.phase = .idle

/-- R152: the bytes the solver writes make the first N - KNOWN parity checks hold over CW[0..N-1], all of it written. -/
def Obligations.SolvedCodewordSatisfiesParity : Prop :=
  ∀ s t : State, s.phase = .solving → inputsReady s → solverTurn s = .next t → t.phase = .idle →
    (∀ j < s.n.toNat, t.cw.written j = true) ∧
      parityHolds s.n.toNat (s.n.toNat - s.known.toNat) (codeByte t)

/-- R159: the result is unique: any word that has the fixed bytes and satisfies the parity checks is the result. -/
def Obligations.SolvedCodewordIsUnique : Prop :=
  ∀ (s t : State) (c : Nat → Byte), s.phase = .solving → inputsReady s → solverTurn s = .next t → t.phase = .idle →
    (∀ j < s.n.toNat, isFixed s j = true → s.cw.read j = some (c j)) →
    parityHolds s.n.toNat (s.n.toNat - s.known.toNat) c → ∀ j < s.n.toNat, t.cw.read j = some (c j)

/-- R162: the bytes at free positions are not inputs: two states that differ only there, and outside [0, N), have the
same codeword afterwards. -/
def Obligations.FreeBytesAreNotInputs : Prop :=
  ∀ s s' t t' : State, s.phase = .solving → s'.phase = .solving → s'.n = s.n → s'.known = s.known →
    (∀ j < s.n.toNat, s'.fm.read j = s.fm.read j) →
    (∀ j < s.n.toNat, isFixed s j = true → s'.cw.read j = s.cw.read j) → inputsReady s →
    solverTurn s = .next t → solverTurn s' = .next t' →
    t'.phase = t.phase ∧ (t.phase = .idle → ∀ j < s.n.toNat, t'.cw.read j = t.cw.read j)

/-- R164: solving again, with another free set of the same size over the codeword the first solve left, keeps every
byte. -/
def Obligations.ResolvingIsStable : Prop :=
  ∀ s t u v : State, s.phase = .solving → inputsReady s → solverTurn s = .next t → t.phase = .idle →
    u.phase = .solving → u.n = t.n → u.known = t.known → u.cw = t.cw → inputsReady u →
    solverTurn u = .next v → v.phase = .idle → ∀ j < s.n.toNat, v.cw.read j = t.cw.read j

/-- R161: while Solving, a step that is neither the solver's nor reset leaves the inputs, RESULT, ECODE and STICKY as
they were, and the block still solving. -/
def Obligations.InputsAreFrozenWhileSolving : Prop :=
  ∀ s t : State, s.phase = .solving → step s = .next t → (∃ e rest, s.schedule = e :: rest ∧ e ≠ .solver ∧ e ≠ .reset) →
    t.phase = .solving ∧ t.n = s.n ∧ t.known = s.known ∧ t.fm = s.fm ∧ t.cw = s.cw ∧ t.result = s.result ∧
      t.ecode = s.ecode ∧ t.sticky = s.sticky

/-! ### Control commands and dispatch (43_control_ops.md, 30_encoding.md) -/

/-- R180: NOP completes, and so overwrites ECODE but not STICKY; its word has no bit set. -/
def Obligations.NopResult : Prop :=
  (∀ s : State, s.phase = .idle → exec .nop s = .next { s with ecode := .ok }) ∧
    (∀ s : State, s.phase = .solving → exec .nop s = .next { s with overrun := true }) ∧
    (∀ s : State, s.phase = .fatal → exec .nop s = .next s) ∧ encode .nop = 0x00000000#32 ∧
    (∀ (w : Word) (s : State), s.phase = .idle → w.toNat / 2 ^ 28 = 0x0 → w ≠ 0x00000000#32 →
      command w s = .next { s with ecode := .illegalCommand, sticky := true }) ∧
    ∀ s : State, s.phase = .idle → s.overrun = false → s.sticky = true →
      statusWord { s with ecode := .ok } = 0x00000008#32

/-- R181: CLR_STATUS clears OVERRUN and STICKY, and cannot clear BUSY or FATAL; its word has no bit set but OP's. -/
def Obligations.ClrStatusResult : Prop :=
  (∀ s : State, s.phase = .idle →
      exec .clrStatus s = .next { s with overrun := false, sticky := false, ecode := .ok }) ∧
    (∀ s : State, s.phase = .solving → exec .clrStatus s = .next { s with overrun := true }) ∧
    (∀ s : State, s.phase = .fatal → exec .clrStatus s = .next s) ∧ encode .clrStatus = 0xC0000000#32 ∧
    (∀ (w : Word) (s : State), s.phase = .idle → w.toNat / 2 ^ 28 = 0xC → w ≠ 0xC0000000#32 →
      command w s = .next { s with ecode := .illegalCommand, sticky := true }) ∧
    ∀ s : State, s.phase = .idle →
      statusWord { s with overrun := false, sticky := false, ecode := .ok } = 0x00000000#32

/-- R207: any word written to CMD while Solving is dropped: OVERRUN is set, and nothing else changes; OVERRUN stays 1
until CLR_STATUS or reset, whatever event comes. -/
def Obligations.CommandsAreDroppedWhileSolving : Prop :=
  (∀ (w : Word) (s : State), s.phase = .solving → command w s = .next { s with overrun := true }) ∧
    ∀ (e : Event) (s t : State), s.overrun = true → runEvent e s = .next t → t.overrun = false →
      e = .reset ∨ s.phase = .idle ∧ e = cmdWrite (encode .clrStatus)

/-- R208: any word written to CMD while Fatal has no effect at all, and STATUS keeps showing FATAL; that ECODE is
Unsolvable in phase Fatal holds at reset, and every event keeps it. -/
def Obligations.CommandsAreIgnoredWhileFatal : Prop :=
  (∀ (w : Word) (s : State), s.phase = .fatal →
      command w s = .next s ∧ (statusWord s).getLsbD 1 = true ∧
        (s.ecode = .unsolvable → (statusWord s).extractLsb' 4 4 = 4#4)) ∧
    (State.reset.phase = .fatal → State.reset.ecode = .unsolvable) ∧
    ∀ (e : Event) (s t : State), (s.phase = .fatal → s.ecode = .unsolvable) → runEvent e s = .next t →
      t.phase = .fatal → t.ecode = .unsolvable

/-- R206: a word written to CMD in phase Idle that selects no row (a reserved opcode, R75, or a reserved bit, R76)
raises IllegalCommand and changes nothing else. -/
def Obligations.IllegalWordsRaise : Prop :=
  (∀ (w : Word) (s : State), s.phase = .idle → (∀ i : Instr, i.selectedBy w = false) →
      command w s = .next { s with ecode := .illegalCommand, sticky := true }) ∧
    (∀ w : Word, 0xD ≤ w.toNat / 2 ^ 28 → ∀ i : Instr, i.selectedBy w = false) ∧
    ∀ (w : Word) (i : Instr), w.toNat / 2 ^ 28 = i.rowMatch.toNat / 2 ^ 28 → w &&& i.rowMask ≠ i.rowMatch →
      ∀ i' : Instr, i'.selectedBy w = false

/-- When the word of the next access to CMD decodes, the step is the meaning of the instruction, at the state with that
access taken off the schedule (R182); the same of `State.withFetchWord`. Whatever the next event is, the step is that
event: a read, a write, or the solver's turn. The schedule is the model's own choice (log entries 1 and 12). -/
def Obligations.StepRunsDecodedInstruction : Prop :=
  (∀ (w : Word) (i : Instr) (rest : List Event) (s : State), s.schedule = cmdWrite w :: rest → decode w = .ok i →
      step s = exec i { s with schedule := rest }) ∧
    (∀ (w : Word) (i : Instr) (s : State), decode w = .ok i → step (s.withFetchWord 32 w.toNat) = exec i s) ∧
    (∀ (e : Event) (rest : List Event) (s : State), s.schedule = e :: rest →
      step s = runEvent e { s with schedule := rest }) ∧
    (∀ (size : Nat) (addr : BusAddr) (s : State), runEvent (.read size addr) s = hostRead size addr s) ∧
    (∀ (size : Nat) (addr : BusAddr) (w : Word) (s : State),
      runEvent (.write size addr w) s = hostWrite size addr w s) ∧
    ∀ s : State, runEvent .solver s = solverTurn s

/-- R74: every word selects exactly one row or none; the decoder gives a command exactly when a row is selected, and
then the command whose word it is. -/
def Obligations.DecodeSelectsTheOneRow : Prop :=
  (∀ w : Word, (∃ i, decode w = .ok i) ↔ ∃ i : Instr, i.selectedBy w = true) ∧
    (∀ (w : Word) (i i' : Instr), i.selectedBy w = true → i'.selectedBy w = true → i.rowMatch = i'.rowMatch) ∧
    ∀ (w : Word) (i : Instr), decode w = .ok i → encode i = w

/-- Decoding the encoding of a command gives the command, with every operand at every value (R72 to R74); so do its
four bytes, lowest first (R53). -/
def Obligations.DecodeOfEncode : Prop :=
  (∀ i : Instr, decode (encode i) = .ok i) ∧
    ∀ (i : Instr) (rest : List Byte), decodeBytes (wordBytes (encode i) ++ rest) = .ok (i, rest)

/-- Words written out from the spec's encodings, one of each format (95_test_vectors.md). -/
def Obligations.SampleWordsDecode : Prop :=
  decode 0xB0000000#32 = .ok .eraseFill ∧ decode 0x20CA0053#32 = .ok (.gfMul 0x53#8 0xCA#8) ∧
    decode 0x4000FC04#32 = .ok (.gfExp 64516#16) ∧ decode 0x5000008E#32 = .ok (.gfLog 0x8E#8) ∧
    decode 0x60AB00FE#32 = .ok (.cwWr 254#8 0xAB#8) ∧ decode 0x80010002#32 = .ok (.fmWr 2#8 true) ∧
    decode 0xA010001A#32 = .ok (.setLen 26#8 16#8) ∧ decode 0x1153008F#32 = .error .reservedBits ∧
    decode 0xD0000000#32 = .error .reservedOpcode

/-- R78, R79: an assembler command is assembled exactly if each operand fits its field, and then to the command of its
mnemonic with those operands; the pseudo-commands are their expansions. -/
def Obligations.AssemblerChecksOperands : Prop :=
  (assemble .nop = some .nop ∧ assemble .eraseFill = some .eraseFill ∧ assemble .clrStatus = some .clrStatus) ∧
    (∀ a b : Nat,
      assemble (.gfAdd a b) = (if a < 256 ∧ b < 256 then some (.gfAdd (BitVec.ofNat 8 a) (BitVec.ofNat 8 b)) else none) ∧
      assemble (.gfMul a b) = (if a < 256 ∧ b < 256 then some (.gfMul (BitVec.ofNat 8 a) (BitVec.ofNat 8 b)) else none) ∧
      assemble (.gfDiv a b) = (if a < 256 ∧ b < 256 then some (.gfDiv (BitVec.ofNat 8 a) (BitVec.ofNat 8 b)) else none) ∧
      assemble (.cwWr a b) = (if a < 256 ∧ b < 256 then some (.cwWr (BitVec.ofNat 8 a) (BitVec.ofNat 8 b)) else none) ∧
      assemble (.setLen a b) =
        (if a < 256 ∧ b < 256 then some (.setLen (BitVec.ofNat 8 a) (BitVec.ofNat 8 b)) else none) ∧
      assemble (.fmWr a b) = (if a < 256 ∧ b < 2 then some (.fmWr (BitVec.ofNat 8 a) (decide (b = 1))) else none)) ∧
    (∀ a : Nat,
      assemble (.gfExp a) = (if a < 65536 then some (.gfExp (BitVec.ofNat 16 a)) else none) ∧
      assemble (.gfLog a) = (if a < 256 then some (.gfLog (BitVec.ofNat 8 a)) else none) ∧
      assemble (.cwRd a) = (if a < 256 then some (.cwRd (BitVec.ofNat 8 a)) else none) ∧
      assemble (.fmRd a) = (if a < 256 then some (.fmRd (BitVec.ofNat 8 a)) else none)) ∧
    (∀ a b : Nat, assemble (.gfSub a b) = assemble (.gfAdd a b)) ∧
    ∀ a : Nat, assemble (.gfInv a) = assemble (.gfDiv 1 a) ∧ assemble (.fmFix a) = assemble (.fmWr a 1) ∧
      assemble (.fmFree a) = assemble (.fmWr a 0)

/-! ### Outcomes (60_exceptions.md) -/

/-- R200: a command that ends, from phase Idle, in an outcome other than OK leaves a state that differs from the one
before only in ECODE and STICKY; so does any word written to CMD. Unsolvable, which the solver raises, also sets the
phase to Fatal. -/
def Obligations.RaisedOutcomesArePrecise : Prop :=
  (∀ (i : Instr) (s t : State), s.phase = .idle → exec i s = .next t → t.ecode ≠ .ok →
      t = { s with ecode := t.ecode, sticky := true }) ∧
    (∀ (w : Word) (s t : State), s.phase = .idle → command w s = .next t → t.ecode ≠ .ok →
      t = { s with ecode := t.ecode, sticky := true }) ∧
    ∀ s t : State, s.phase = .solving → solverTurn s = .next t → t.ecode ≠ .ok →
      t = { s with phase := .fatal, ecode := .unsolvable, sticky := true }

/-- R202: the commands, in phase Idle, that end in InvalidArgument: exactly those of the list; nothing but the code (and
STICKY, R200) is recorded. -/
def Obligations.InvalidArgumentExactlyWhen : Prop :=
  ∀ (i : Instr) (s t : State), s.phase = .idle → exec i s = .next t →
    (t.ecode = .invalidArgument ↔
      (∃ addr d, i = .cwWr addr d ∧ Config.nMax ≤ addr.toNat) ∨ (∃ addr, i = .cwRd addr ∧ Config.nMax ≤ addr.toNat) ∨
      (∃ addr f, i = .fmWr addr f ∧ Config.nMax ≤ addr.toNat) ∨ (∃ addr, i = .fmRd addr ∧ Config.nMax ≤ addr.toNat) ∨
      (i = .eraseFill ∧ (s.n.toNat = 0 ∨ Config.nMax < s.n.toNat ∨ s.known.toNat = 0 ∨ s.n.toNat ≤ s.known.toNat ∨
        fixedCount s ≠ s.known.toNat))) ∧
    (t.ecode = .invalidArgument → t = { s with ecode := .invalidArgument, sticky := true })

/-- R203, R204: DivisionByZero comes only of GF_DIV by zero, and FieldDomainError only of GF_LOG of zero. R205: no
command ends in Unsolvable, and no command that decodes ends in IllegalCommand (R206); the solver's step ends in OK or
Unsolvable, so its own divisions and products raise neither. -/
def Obligations.FieldErrorsExactlyWhen : Prop :=
  (∀ (i : Instr) (s t : State), s.phase = .idle → exec i s = .next t →
      (t.ecode = .divisionByZero ↔ ∃ a, i = .gfDiv a 0#8) ∧ (t.ecode = .fieldDomainError ↔ i = .gfLog 0#8) ∧
        t.ecode ≠ .unsolvable ∧ t.ecode ≠ .illegalCommand) ∧
    ∀ s t : State, s.phase = .solving → solverTurn s = .next t → t.ecode = .ok ∨ t.ecode = .unsolvable

/-- R210: a step stops only in the two model faults, each where the spec says: RefusedAccess at an access that is not
allowed, UnwrittenRead at CW_RD, FM_RD, ERASE_FILL or the solver's step. No step is refused. -/
def Obligations.StepsStopOnlyInModelFaults : Prop :=
  (∀ (s : State) (r : Refusal), step s ≠ .refused r) ∧
    (∀ s : State, step s = .fault .refusedAccess ↔ ∃ e rest, s.schedule = e :: rest ∧ e.allowed = false) ∧
    ∀ s : State, step s = .fault .unwrittenRead →
      (s.phase = .solving ∧ (s.schedule = [] ∨ ∃ rest, s.schedule = .solver :: rest)) ∨
      ∃ w rest i, s.phase = .idle ∧ s.schedule = cmdWrite w :: rest ∧ decode w = .ok i ∧
        ((∃ a, i = .cwRd a) ∨ (∃ a, i = .fmRd a) ∨ i = .eraseFill)

/-! ### Registers and accesses (10_state.md, 20_memory.md) -/

/-- R37: the machine right after reset. The buffers are unwritten (R35). -/
def Obligations.ResetValues : Prop :=
  State.reset.phase = .idle ∧ statusWord State.reset = 0x00000000#32 ∧ State.reset.result = 0#8 ∧
    State.reset.n = 0#8 ∧ State.reset.known = 0#8 ∧ geomWord State.reset = 0x00000000#32 ∧
    configWord = 0xFF02011D#32 ∧ ∀ j, State.reset.cw.written j = false ∧ State.reset.fm.written j = false

/-- R230: reset takes effect in one step, in every phase, and is the only way out of phase Fatal. -/
def Obligations.ResetEventResets : Prop :=
  (∀ s : State, ∃ t, runEvent .reset s = .next t ∧ t.phase = .idle ∧ statusWord t = 0x00000000#32 ∧
      t.result = 0#8 ∧ t.n = 0#8 ∧ t.known = 0#8 ∧ (∀ j, t.cw.written j = false ∧ t.fm.written j = false) ∧
      registerValue .config t = 0xFF02011D#32) ∧
    ∀ (e : Event) (s t : State), s.phase = .fatal → runEvent e s = .next t → t.phase ≠ .fatal → e = .reset

/-- R28: the fields of STATUS, bit by bit; BUSY and FATAL are never 1 together. R201: the code of each outcome. -/
def Obligations.StatusFields : Prop :=
  ∀ s : State, (statusWord s).getLsbD 0 = decide (s.phase = .solving) ∧
    (statusWord s).getLsbD 1 = decide (s.phase = .fatal) ∧ (statusWord s).getLsbD 2 = s.overrun ∧
    (statusWord s).getLsbD 3 = s.sticky ∧
    (statusWord s).extractLsb' 4 4 = (match s.ecode with
      | .ok => 0#4
      | .invalidArgument => 1#4
      | .divisionByZero => 2#4
      | .fieldDomainError => 3#4
      | .unsolvable => 4#4
      | .illegalCommand => 5#4) ∧
    (statusWord s).toNat < 2 ^ 8 ∧ ¬ ((statusWord s).getLsbD 0 = true ∧ (statusWord s).getLsbD 1 = true)

/-- R55: a read of a register returns its current value (CMD and the reserved offsets read as 0), in every phase, and
changes nothing of the block; with R50's offsets, and the values of CONFIG and GEOM (R29, R30). What the host gets
back is recorded in the model's own field hostReads: that the answer is the state with that field grown is the model's
choice (DESIGN CHOICE, log entry 3). -/
def Obligations.ReadsReturnRegisters : Prop :=
  ∀ (offset : BitVec 5) (s : State), offset.toNat % 4 = 0 →
    ∃ v : Word, hostRead 4 (.window offset) s = .next { s with hostReads := v :: s.hostReads } ∧
      (offset = 0x04#5 → v.toNat = s.result.toNat) ∧ (offset = 0x08#5 → v = statusWord s) ∧
      (offset = 0x0C#5 → v = 0xFF02011D#32) ∧ (offset = 0x10#5 → v.toNat = s.known.toNat * 256 + s.n.toNat) ∧
      (offset ≠ 0x04#5 → offset ≠ 0x08#5 → offset ≠ 0x0C#5 → offset ≠ 0x10#5 → v = 0#32)

/-- R56: a write to CMD issues the command its word encodes, and any word goes to R182's dispatch, `command`; a write to
any other register is ignored. -/
def Obligations.WritesElsewhereAreIgnored : Prop :=
  ∀ (offset : BitVec 5) (w : Word) (s : State), offset.toNat % 4 = 0 →
    (offset = 0x00#5 → hostWrite 4 (.window offset) w s = command w s ∧
      ∀ i, decode w = .ok i → hostWrite 4 (.window offset) w s = exec i s) ∧
    (offset ≠ 0x00#5 → hostWrite 4 (.window offset) w s = .next s)

/-- R54: an access that is not an aligned 32-bit access inside the window is refused; R10, R50: which host addresses
are inside the window, and at which offset. -/
def Obligations.OtherAccessesAreRefused : Prop :=
  (∀ (size : Nat) (a : Nat) (w : Word) (rest : List Event) (s : State),
      (size ≠ 4 ∨ a % 4 ≠ 0 ∨ a < Config.base ∨ Config.base + 0x20 ≤ a) →
      (s.schedule = .read size (BusAddr.ofAddress a) :: rest → step s = .fault .refusedAccess) ∧
      (s.schedule = .write size (BusAddr.ofAddress a) w :: rest → step s = .fault .refusedAccess)) ∧
    (∀ off : Nat, off < 0x20 → BusAddr.ofAddress (Config.base + off) = .window (BitVec.ofNat 5 off)) ∧
    Config.base % 0x20 = 0

/-- R58: with nothing from the host, the only change is the solver's completion; R238: once the program has ended, the
state stays as it is. -/
def Obligations.OnlyTheSolverMovesUnprompted : Prop :=
  (∀ s : State, s.schedule = [] → step s = solverTurn s) ∧ (∀ s : State, programEnded s → step s = .next s) ∧
    ∀ (s t : State), s.schedule = [] → s.phase = .solving → step s = .next t → programEnded t

/-! ### Whole-machine rules -/

/-- R32: the phase moves only as listed, and by the event that moves it; BUSY and FATAL are read from it, and it is
Idle at reset. -/
def Obligations.PhaseTransitions : Prop :=
  State.reset.phase = .idle ∧
  (∀ s : State, (statusWord s).getLsbD 0 = decide (s.phase = .solving) ∧
    (statusWord s).getLsbD 1 = decide (s.phase = .fatal)) ∧
  ∀ (e : Event) (s t : State), runEvent e s = .next t → t.phase ≠ s.phase →
    (s.phase = .idle ∧ t.phase = .solving ∧ e = cmdWrite 0xB0000000#32) ∨
    (s.phase = .solving ∧ t.phase = .idle ∧ t.ecode = .ok ∧ e = .solver) ∨
    (s.phase = .solving ∧ t.phase = .fatal ∧ t.ecode = .unsolvable ∧ e = .solver) ∨
    (t.phase = .idle ∧ e = .reset)

/-- R25, R26: N and KNOWN are written only by SET_LEN (and reset). R24: FM is written only by FM_WR (and reset), never
by the solver. -/
def Obligations.GeometryAndMaskWriters : Prop :=
  ∀ s t : State, step s = .next t →
    (t.n ≠ s.n ∨ t.known ≠ s.known →
      (∃ rest, s.schedule = .reset :: rest) ∨
      ∃ rest, s.phase = .idle ∧ s.schedule = cmdWrite (encode (.setLen t.n t.known)) :: rest) ∧
    (∀ j, t.fm.read j ≠ s.fm.read j →
      (∃ rest, s.schedule = .reset :: rest) ∨
      ∃ addr f rest, s.phase = .idle ∧ addr.toNat = j ∧ t.fm.read j = some f ∧
        s.schedule = cmdWrite (encode (.fmWr addr f)) :: rest)

/-- R27: RESULT is written only by a successful GF_ADD, GF_MUL, GF_DIV, GF_EXP, GF_LOG, CW_RD or FM_RD (and reset).
R23: an entry of CW is written only by CW_WR and by the solver at a free position below N (and reset). -/
def Obligations.ResultAndCodewordWriters : Prop :=
  ∀ s t : State, step s = .next t →
    (t.result ≠ s.result →
      (∃ rest, s.schedule = .reset :: rest) ∨
      ∃ w rest i, s.phase = .idle ∧ t.ecode = .ok ∧ s.schedule = cmdWrite w :: rest ∧ decode w = .ok i ∧
        ((∃ a b, i = .gfAdd a b) ∨ (∃ a b, i = .gfMul a b) ∨ (∃ a b, i = .gfDiv a b) ∨ (∃ e, i = .gfExp e) ∨
          (∃ v, i = .gfLog v) ∨ (∃ a, i = .cwRd a) ∨ ∃ a, i = .fmRd a)) ∧
    (∀ j, t.cw.read j ≠ s.cw.read j →
      (∃ rest, s.schedule = .reset :: rest) ∨
      (∃ addr d rest, s.phase = .idle ∧ addr.toNat = j ∧ t.cw.read j = some d ∧
        s.schedule = cmdWrite (encode (.cwWr addr d)) :: rest) ∨
      (s.phase = .solving ∧ j < s.n.toNat ∧ isFixed s j = false ∧
        (s.schedule = [] ∨ ∃ rest, s.schedule = .solver :: rest)))

/-- R28: STICKY falls, and OVERRUN falls, only by CLR_STATUS and reset; STICKY rises with an ECODE other than OK, and
OVERRUN rises only at a word written to CMD while Solving. -/
def Obligations.StickyAndOverrunWriters : Prop :=
  ∀ s t : State, step s = .next t →
    (s.sticky = true ∧ t.sticky = false ∨ s.overrun = true ∧ t.overrun = false →
      (∃ rest, s.schedule = .reset :: rest) ∨
      ∃ rest, s.phase = .idle ∧ s.schedule = cmdWrite (encode .clrStatus) :: rest) ∧
    (s.sticky = false → t.sticky = true → t.ecode ≠ .ok) ∧
    (s.overrun = false → t.overrun = true → s.phase = .solving ∧ ∃ w rest, s.schedule = cmdWrite w :: rest)

/-- The buffers keep their canonical form through every step. That they are lists with rising indices is the model's own
form (DESIGN CHOICE, log entry 4); R23 and R24 give the bound, that every index is below N_MAX. -/
def Obligations.StepsKeepBuffersCanonical : Prop :=
  ∀ s t : State, buffersWf s → step s = .next t → buffersWf t

/-- The two invariants hold at reset: the buffers' canonical form, which is the model's own (DESIGN CHOICE, log entry 4),
and `solvingReady`, that the inputs are in order if the phase is Solving (at reset it is Idle, R37). -/
def Obligations.ResetBuffersCanonical : Prop := buffersWf State.reset ∧ solvingReady State.reset

/-- R161: what acceptance found of the inputs holds until the solver step, through every step. -/
def Obligations.StepsKeepSolvingInputsReady : Prop :=
  ∀ s t : State, solvingReady s → step s = .next t → solvingReady t

/-- R160, as an invariant: from a state that is not Fatal and whose inputs are ready if it is solving, no step reaches
phase Fatal. -/
def Obligations.StepsNeverReachFatal : Prop :=
  ∀ s t : State, solvingReady s → s.phase ≠ .fatal → step s = .next t → t.phase ≠ .fatal
end

