-- ==== Sys2Proof/Laws/Field.lean ====
section
/-! SUPPORT. The tables' own facts, each read off the finite tables once, and what they say of multiplication: it is
repeated multiplication by α, which is linear (40_field_ops.md R100 to R103). -/

namespace Sys2Proof.Machine

/-! ### The tables -/

theorem expt_zero : expt 0 = 1#8 := by decide

/-- Each entry of the antilog table is the one before it times α (R100). -/
theorem expt_succ : ∀ i < 255, expt (i + 1) = timesAlpha (expt i) := by decide +kernel

theorem expt_255 : expt 255 = 1#8 := by decide

theorem expt_ne_zero : ∀ i < 255, expt i ≠ 0#8 := by decide +kernel

/-- Logarithms are below the order of the group (R102). -/
theorem logt_lt : ∀ (v : Byte) (hv : v ≠ 0#8), (logt v hv).toNat < 255 := by decide +kernel

/-- The antilog of the logarithm is the element (10_state.md R21). -/
theorem expt_logt : ∀ (v : Byte) (hv : v ≠ 0#8), expt (logt v hv).toNat = v := by decide +kernel

/-- The logarithm of an antilog is the index. -/
theorem logt_expt : ∀ (i : Nat) (hi : i < 255), (logt (expt i) (expt_ne_zero i hi)).toNat = i := by decide +kernel

/-- `logt` depends on the element alone. -/
theorem logt_congr {v w : Byte} (h : v = w) (hv : v ≠ 0#8) : logt v hv = logt w (h ▸ hv) := by subst h; rfl

/-- Two elements with the same logarithm are equal. -/
theorem logt_injective {v w : Byte} {hv : v ≠ 0#8} {hw : w ≠ 0#8} (h : logt v hv = logt w hw) : v = w := by
  rw [← expt_logt v hv, ← expt_logt w hw, h]

/-! ### Addition -/

@[simp] theorem gfAdd_zero (a : Byte) : gfAdd a 0#8 = a := BitVec.xor_zero

@[simp] theorem zero_gfAdd (a : Byte) : gfAdd 0#8 a = a := BitVec.zero_xor

@[simp] theorem gfAdd_self (a : Byte) : gfAdd a a = 0#8 := BitVec.xor_self

/-! ### Multiplication by α -/

theorem timesAlpha_zero : timesAlpha 0#8 = 0#8 := by decide

/-- Multiplication by α by cases of the bit shifted out. -/
theorem timesAlpha_eq : ∀ x : Byte, timesAlpha x = (x <<< 1) ^^^ (if x.msb then 0x1D#8 else 0#8) := by decide +kernel

/-- Multiplication by α is linear. -/
theorem timesAlpha_gfAdd (a b : Byte) : timesAlpha (gfAdd a b) = gfAdd (timesAlpha a) (timesAlpha b) := by
  simp only [timesAlpha_eq, gfAdd, BitVec.msb_xor, BitVec.shiftLeft_xor_distrib]
  cases a.msb <;> cases b.msb <;> simp only [Bool.xor_self, Bool.xor_false, Bool.false_xor, if_true, if_false,
    Bool.false_eq_true, BitVec.xor_zero] <;> ac_nf <;> simp

theorem iterate_timesAlpha_zero (p : Nat) : timesAlpha^[p] 0#8 = 0#8 :=
  Function.iterate_fixed timesAlpha_zero p

theorem iterate_timesAlpha_gfAdd (p : Nat) (a b : Byte) :
    timesAlpha^[p] (gfAdd a b) = gfAdd (timesAlpha^[p] a) (timesAlpha^[p] b) := by
  induction p generalizing a b with
  | zero => rfl
  | succ p ih => simp only [Function.iterate_succ_apply, timesAlpha_gfAdd, ih]

/-- The antilog table continued with period 255: each entry is the one before it times α. -/
theorem gfExp_succ (e : Nat) : gfExp (e + 1) = timesAlpha (gfExp e) := by
  have hlt : e % 255 < 255 := Nat.mod_lt _ (by decide)
  have hs := expt_succ _ hlt
  unfold gfExp Config.groupOrder
  rw [← hs, Nat.add_mod]
  rcases Nat.lt_or_ge (e % 255 + 1) 255 with h | h
  · rw [Nat.mod_eq_of_lt (a := e % 255 + 1 % 255) (by omega)]
  · have h255 : e % 255 = 254 := by omega
    rw [h255]
    decide

/-- `α^p` is α applied `p` times to 1. -/
theorem gfExp_eq_iterate (p : Nat) : gfExp p = timesAlpha^[p] 1#8 := by
  induction p with
  | zero => exact expt_zero
  | succ p ih => rw [gfExp_succ, ih, Function.iterate_succ_apply']

theorem gfExp_logt (v : Byte) (hv : v ≠ 0#8) : gfExp (logt v hv).toNat = v := by
  unfold gfExp Config.groupOrder
  rw [Nat.mod_eq_of_lt (logt_lt v hv), expt_logt]

theorem gfExp_ne_zero (e : Nat) : gfExp e ≠ 0#8 := expt_ne_zero _ (Nat.mod_lt _ (by decide))

theorem logt_gfExp (e : Nat) : (logt (gfExp e) (gfExp_ne_zero e)).toNat = e % 255 :=
  logt_expt _ (Nat.mod_lt _ (by decide))

/-! ### Multiplication -/

@[simp] theorem gfMul_zero (a : Byte) : gfMul a 0#8 = 0#8 := by simp [gfMul]

@[simp] theorem zero_gfMul (a : Byte) : gfMul 0#8 a = 0#8 := by simp [gfMul]

/-- The product of non-zero elements is the antilog of the sum of their logarithms (R103). -/
theorem gfMul_of_ne {a b : Byte} (ha : a ≠ 0#8) (hb : b ≠ 0#8) :
    gfMul a b = gfExp ((logt a ha).toNat + (logt b hb).toNat) := by
  simp [gfMul, ha, hb, gfExp]

/-- The quotient by a non-zero element is the antilog of the difference of the logarithms, up to the period (R104). -/
theorem gfQuot_of_ne {a b : Byte} (ha : a ≠ 0#8) (hb : b ≠ 0#8) :
    gfQuot a b hb = gfExp ((logt a ha).toNat + (255 - (logt b hb).toNat)) := by
  simp [gfQuot, ha, gfExp, Config.groupOrder]

@[simp] theorem gfQuot_zero {b : Byte} (hb : b ≠ 0#8) : gfQuot 0#8 b hb = 0#8 := by simp [gfQuot]

/-- Multiplication by `α^p` is α applied `p` times. -/
theorem gfMul_gfExp (p : Nat) (b : Byte) : gfMul (gfExp p) b = timesAlpha^[p] b := by
  by_cases hb : b = 0#8
  · rw [hb, gfMul_zero, iterate_timesAlpha_zero]
  · rw [gfMul_of_ne (gfExp_ne_zero p) hb, logt_gfExp]
    have : gfExp (p % 255 + (logt b hb).toNat) = gfExp (p + (logt b hb).toNat) := by
      simp [gfExp, Config.groupOrder, Nat.add_mod]
    rw [this, gfExp_eq_iterate, Function.iterate_add_apply, ← gfExp_eq_iterate, gfExp_logt]

end Sys2Proof.Machine
end

