-- ==== Sys2Proof/Laws/Memory.lean ====
section
/-! SUPPORT. What the buffer operations do: a read after a write, the canonical form kept, and reading or writing many
entries at once. -/

namespace Sys2Proof.Machine

variable {α : Type}

@[simp] theorem Memory.read_nil (i : Nat) : Memory.read ([] : Memory α) i = none := rfl

theorem Memory.read_cons (j : Nat) (v : α) (m : Memory α) (i : Nat) :
    Memory.read ((j, v) :: m) i = if j = i then some v else m.read i := rfl

/-- What an entry reads as after a write: the value at the index written, and what it was anywhere else. -/
theorem Memory.read_write (m : Memory α) (i : Nat) (v : α) (j : Nat) :
    (Memory.write m i v).read j = if i = j then some v else m.read j := by
  induction m with
  | nil => simp [Memory.write, Memory.read_cons]
  | cons c m ih =>
    obtain ⟨k, w⟩ := c
    simp only [Memory.write]
    split_ifs <;> simp only [Memory.read_cons, ih] <;> split_ifs <;> first | rfl | omega

@[simp] theorem Memory.read_write_same (m : Memory α) (i : Nat) (v : α) : (Memory.write m i v).read i = some v := by
  simp [Memory.read_write]

theorem Memory.read_write_other (m : Memory α) {i j : Nat} (v : α) (h : i ≠ j) :
    (Memory.write m i v).read j = m.read j := by simp [Memory.read_write, h]

/-- An entry of a buffer after a write is the one written, or an entry it had. -/
theorem Memory.mem_write {m : Memory α} {i : Nat} {v : α} {x : Nat × α} (h : x ∈ Memory.write m i v) :
    x = (i, v) ∨ x ∈ m := by
  induction m with
  | nil => simpa [Memory.write] using h
  | cons c m ih =>
    obtain ⟨k, w⟩ := c
    simp only [Memory.write] at h
    split_ifs at h
    · simpa using h
    · rcases List.mem_cons.1 h with h | h
      · exact .inl h
      · exact .inr (List.mem_cons_of_mem _ h)
    · rcases List.mem_cons.1 h with h | h
      · exact .inr (h ▸ List.mem_cons_self)
      · exact (ih h).imp_right (List.mem_cons_of_mem _)

/-- The empty buffer is in canonical form. -/
theorem Memory.wf_nil : Memory.wf ([] : Memory α) := ⟨List.Pairwise.nil, by simp⟩

/-- A write inside the buffer keeps the canonical form. -/
theorem Memory.wf_write {m : Memory α} (hm : Memory.wf m) {i : Nat} (hi : i < Config.nMax) (v : α) :
    Memory.wf (Memory.write m i v) := by
  refine ⟨?_, fun x hx => (Memory.mem_write hx).elim (fun h => h ▸ hi) (hm.2 x)⟩
  have hs := hm.1
  clear hm hi
  induction m with
  | nil => simp [Memory.write]
  | cons c m ih =>
    obtain ⟨k, w⟩ := c
    obtain ⟨hlt, hs⟩ := List.pairwise_cons.1 hs
    simp only [Memory.write]
    split_ifs with h1 h2
    · refine List.pairwise_cons.2 ⟨fun x hx => ?_, List.pairwise_cons.2 ⟨hlt, hs⟩⟩
      rcases List.mem_cons.1 hx with rfl | hx
      · exact h1
      · exact h1.trans (hlt x hx)
    · exact List.pairwise_cons.2 ⟨fun x hx => h2 ▸ hlt x hx, hs⟩
    · refine List.pairwise_cons.2 ⟨fun x hx => ?_, ih hs⟩
      rcases Memory.mem_write hx with rfl | hx
      · change k < i
        omega
      · exact hlt x hx

/-- Writing many entries inside the buffer keeps the canonical form. -/
theorem Memory.wf_writeAll {m : Memory α} (hm : Memory.wf m) {ps : List (Nat × α)}
    (hp : ∀ p ∈ ps, p.1 < Config.nMax) : Memory.wf (m.writeAll ps) := by
  induction ps generalizing m with
  | nil => exact hm
  | cons p ps ih =>
    obtain ⟨i, v⟩ := p
    exact ih (Memory.wf_write hm (hp _ List.mem_cons_self) v) fun q hq => hp q (List.mem_cons_of_mem _ hq)

/-- Writing many entries leaves an index that is none of theirs as it was. -/
theorem Memory.read_writeAll_other {m : Memory α} {ps : List (Nat × α)} {j : Nat} (hj : j ∉ ps.map Prod.fst) :
    (m.writeAll ps).read j = m.read j := by
  induction ps generalizing m with
  | nil => rfl
  | cons p ps ih =>
    obtain ⟨i, v⟩ := p
    simp only [List.map_cons, List.mem_cons, not_or] at hj
    rw [Memory.writeAll, ih hj.2, Memory.read_write_other _ _ (Ne.symm hj.1)]

/-- Writing many entries at different indices leaves each with its value. -/
theorem Memory.read_writeAll_mem {m : Memory α} {ps : List (Nat × α)} (hn : (ps.map Prod.fst).Nodup) {p : Nat × α}
    (hp : p ∈ ps) : (m.writeAll ps).read p.1 = some p.2 := by
  induction ps generalizing m with
  | nil => cases hp
  | cons q ps ih =>
    obtain ⟨i, v⟩ := q
    obtain ⟨hi, hn⟩ := List.nodup_cons.1 hn
    rcases List.mem_cons.1 hp with rfl | hp
    · rw [Memory.writeAll, Memory.read_writeAll_other hi, Memory.read_write_same]
    · exact ih hn hp

/-- `readAll` answers exactly when every entry asked for is written, and then with their values in order. -/
theorem Memory.readAll_eq_some_iff {m : Memory α} {is : List Nat} {vs : List α} :
    m.readAll is = some vs ↔ is.map m.read = vs.map some := by
  induction is generalizing vs with
  | nil => cases vs <;> simp [Memory.readAll]
  | cons i is ih =>
    cases hv : m.read i with
    | none => cases vs <;> simp [Memory.readAll, hv]
    | some v =>
      cases hr : m.readAll is with
      | none =>
        cases vs with
        | nil => simp [Memory.readAll, hv, hr]
        | cons w ws =>
          have := mt (ih (vs := ws)).2 (by simp [hr])
          simp [Memory.readAll, hv, hr, this]
      | some us =>
        cases vs with
        | nil => simp [Memory.readAll, hv, hr]
        | cons w ws =>
          have h := ih (vs := ws)
          rw [hr, Option.some.injEq] at h
          simp [Memory.readAll, hv, hr, h]

/-- `readAll` answers as many values as indices. -/
theorem Memory.length_of_readAll {m : Memory α} {is : List Nat} {vs : List α} (h : m.readAll is = some vs) :
    vs.length = is.length := by
  have := congrArg List.length (Memory.readAll_eq_some_iff.1 h)
  simpa using this.symm

/-- `readAll` answers if every entry asked for is written. -/
theorem Memory.readAll_isSome_iff {m : Memory α} {is : List Nat} :
    (m.readAll is).isSome ↔ ∀ i ∈ is, m.written i = true := by
  induction is with
  | nil => simp [Memory.readAll]
  | cons i is ih =>
    rw [List.forall_mem_cons, ← ih]
    cases hv : m.read i <;> cases hr : m.readAll is <;> simp [Memory.readAll, Memory.written, hv, hr]

/-- `readAll` looks at nothing but the entries asked for. -/
theorem Memory.readAll_congr {m m' : Memory α} {is : List Nat} (h : ∀ i ∈ is, m.read i = m'.read i) :
    m.readAll is = m'.readAll is := by
  induction is with
  | nil => rfl
  | cons i is ih =>
    rw [List.forall_mem_cons] at h
    simp only [Memory.readAll, h.1, ih h.2]

end Sys2Proof.Machine
end

