-- ==== Sys2Proof/Laws/State.lean ====
section
/-! SUPPORT. One lemma for each field of State under each named update of it, true by unfolding the update once. -/

namespace Sys2Proof.Machine

/-! ### `complete` -/

@[simp] theorem complete_cw (s : State) : (complete s).cw = s.cw := rfl
@[simp] theorem complete_fm (s : State) : (complete s).fm = s.fm := rfl
@[simp] theorem complete_n (s : State) : (complete s).n = s.n := rfl
@[simp] theorem complete_known (s : State) : (complete s).known = s.known := rfl
@[simp] theorem complete_result (s : State) : (complete s).result = s.result := rfl
@[simp] theorem complete_overrun (s : State) : (complete s).overrun = s.overrun := rfl
@[simp] theorem complete_sticky (s : State) : (complete s).sticky = s.sticky := rfl
@[simp] theorem complete_ecode (s : State) : (complete s).ecode = .ok := rfl
@[simp] theorem complete_phase (s : State) : (complete s).phase = s.phase := rfl
@[simp] theorem complete_schedule (s : State) : (complete s).schedule = s.schedule := rfl
@[simp] theorem complete_hostReads (s : State) : (complete s).hostReads = s.hostReads := rfl

/-! ### `raise` -/

@[simp] theorem raise_cw (c : OutcomeCode) (s : State) : (raise c s).cw = s.cw := rfl
@[simp] theorem raise_fm (c : OutcomeCode) (s : State) : (raise c s).fm = s.fm := rfl
@[simp] theorem raise_n (c : OutcomeCode) (s : State) : (raise c s).n = s.n := rfl
@[simp] theorem raise_known (c : OutcomeCode) (s : State) : (raise c s).known = s.known := rfl
@[simp] theorem raise_result (c : OutcomeCode) (s : State) : (raise c s).result = s.result := rfl
@[simp] theorem raise_overrun (c : OutcomeCode) (s : State) : (raise c s).overrun = s.overrun := rfl
@[simp] theorem raise_sticky (c : OutcomeCode) (s : State) : (raise c s).sticky = true := rfl
@[simp] theorem raise_ecode (c : OutcomeCode) (s : State) : (raise c s).ecode = c := rfl
@[simp] theorem raise_phase (c : OutcomeCode) (s : State) : (raise c s).phase = s.phase := rfl
@[simp] theorem raise_schedule (c : OutcomeCode) (s : State) : (raise c s).schedule = s.schedule := rfl
@[simp] theorem raise_hostReads (c : OutcomeCode) (s : State) : (raise c s).hostReads = s.hostReads := rfl

/-! ### `drop` -/

@[simp] theorem drop_cw (s : State) : (drop s).cw = s.cw := rfl
@[simp] theorem drop_fm (s : State) : (drop s).fm = s.fm := rfl
@[simp] theorem drop_n (s : State) : (drop s).n = s.n := rfl
@[simp] theorem drop_known (s : State) : (drop s).known = s.known := rfl
@[simp] theorem drop_result (s : State) : (drop s).result = s.result := rfl
@[simp] theorem drop_overrun (s : State) : (drop s).overrun = true := rfl
@[simp] theorem drop_sticky (s : State) : (drop s).sticky = s.sticky := rfl
@[simp] theorem drop_ecode (s : State) : (drop s).ecode = s.ecode := rfl
@[simp] theorem drop_phase (s : State) : (drop s).phase = s.phase := rfl
@[simp] theorem drop_schedule (s : State) : (drop s).schedule = s.schedule := rfl
@[simp] theorem drop_hostReads (s : State) : (drop s).hostReads = s.hostReads := rfl

/-! ### `clearSticky` -/

@[simp] theorem clearSticky_cw (s : State) : (clearSticky s).cw = s.cw := rfl
@[simp] theorem clearSticky_fm (s : State) : (clearSticky s).fm = s.fm := rfl
@[simp] theorem clearSticky_n (s : State) : (clearSticky s).n = s.n := rfl
@[simp] theorem clearSticky_known (s : State) : (clearSticky s).known = s.known := rfl
@[simp] theorem clearSticky_result (s : State) : (clearSticky s).result = s.result := rfl
@[simp] theorem clearSticky_overrun (s : State) : (clearSticky s).overrun = false := rfl
@[simp] theorem clearSticky_sticky (s : State) : (clearSticky s).sticky = false := rfl
@[simp] theorem clearSticky_ecode (s : State) : (clearSticky s).ecode = s.ecode := rfl
@[simp] theorem clearSticky_phase (s : State) : (clearSticky s).phase = s.phase := rfl
@[simp] theorem clearSticky_schedule (s : State) : (clearSticky s).schedule = s.schedule := rfl
@[simp] theorem clearSticky_hostReads (s : State) : (clearSticky s).hostReads = s.hostReads := rfl

/-! ### `beginSolve` -/

@[simp] theorem beginSolve_cw (s : State) : (beginSolve s).cw = s.cw := rfl
@[simp] theorem beginSolve_fm (s : State) : (beginSolve s).fm = s.fm := rfl
@[simp] theorem beginSolve_n (s : State) : (beginSolve s).n = s.n := rfl
@[simp] theorem beginSolve_known (s : State) : (beginSolve s).known = s.known := rfl
@[simp] theorem beginSolve_result (s : State) : (beginSolve s).result = s.result := rfl
@[simp] theorem beginSolve_overrun (s : State) : (beginSolve s).overrun = s.overrun := rfl
@[simp] theorem beginSolve_sticky (s : State) : (beginSolve s).sticky = s.sticky := rfl
@[simp] theorem beginSolve_ecode (s : State) : (beginSolve s).ecode = .ok := rfl
@[simp] theorem beginSolve_phase (s : State) : (beginSolve s).phase = .solving := rfl
@[simp] theorem beginSolve_schedule (s : State) : (beginSolve s).schedule = s.schedule := rfl
@[simp] theorem beginSolve_hostReads (s : State) : (beginSolve s).hostReads = s.hostReads := rfl

/-! ### `writeBack` -/

@[simp] theorem writeBack_cw (free : List Nat) (xs : List Byte) (s : State) : (writeBack free xs s).cw = s.cw.writeAll (free.zip xs) := rfl
@[simp] theorem writeBack_fm (free : List Nat) (xs : List Byte) (s : State) : (writeBack free xs s).fm = s.fm := rfl
@[simp] theorem writeBack_n (free : List Nat) (xs : List Byte) (s : State) : (writeBack free xs s).n = s.n := rfl
@[simp] theorem writeBack_known (free : List Nat) (xs : List Byte) (s : State) : (writeBack free xs s).known = s.known := rfl
@[simp] theorem writeBack_result (free : List Nat) (xs : List Byte) (s : State) : (writeBack free xs s).result = s.result := rfl
@[simp] theorem writeBack_overrun (free : List Nat) (xs : List Byte) (s : State) : (writeBack free xs s).overrun = s.overrun := rfl
@[simp] theorem writeBack_sticky (free : List Nat) (xs : List Byte) (s : State) : (writeBack free xs s).sticky = s.sticky := rfl
@[simp] theorem writeBack_ecode (free : List Nat) (xs : List Byte) (s : State) : (writeBack free xs s).ecode = .ok := rfl
@[simp] theorem writeBack_phase (free : List Nat) (xs : List Byte) (s : State) : (writeBack free xs s).phase = .idle := rfl
@[simp] theorem writeBack_schedule (free : List Nat) (xs : List Byte) (s : State) : (writeBack free xs s).schedule = s.schedule := rfl
@[simp] theorem writeBack_hostReads (free : List Nat) (xs : List Byte) (s : State) : (writeBack free xs s).hostReads = s.hostReads := rfl

/-! ### `unsolvable` -/

@[simp] theorem unsolvable_cw (s : State) : (unsolvable s).cw = s.cw := rfl
@[simp] theorem unsolvable_fm (s : State) : (unsolvable s).fm = s.fm := rfl
@[simp] theorem unsolvable_n (s : State) : (unsolvable s).n = s.n := rfl
@[simp] theorem unsolvable_known (s : State) : (unsolvable s).known = s.known := rfl
@[simp] theorem unsolvable_result (s : State) : (unsolvable s).result = s.result := rfl
@[simp] theorem unsolvable_overrun (s : State) : (unsolvable s).overrun = s.overrun := rfl
@[simp] theorem unsolvable_sticky (s : State) : (unsolvable s).sticky = true := rfl
@[simp] theorem unsolvable_ecode (s : State) : (unsolvable s).ecode = .unsolvable := rfl
@[simp] theorem unsolvable_phase (s : State) : (unsolvable s).phase = .fatal := rfl
@[simp] theorem unsolvable_schedule (s : State) : (unsolvable s).schedule = s.schedule := rfl
@[simp] theorem unsolvable_hostReads (s : State) : (unsolvable s).hostReads = s.hostReads := rfl

/-! ### `popEvent` -/

@[simp] theorem popEvent_cw (rest : List Event) (s : State) : (popEvent rest s).cw = s.cw := rfl
@[simp] theorem popEvent_fm (rest : List Event) (s : State) : (popEvent rest s).fm = s.fm := rfl
@[simp] theorem popEvent_n (rest : List Event) (s : State) : (popEvent rest s).n = s.n := rfl
@[simp] theorem popEvent_known (rest : List Event) (s : State) : (popEvent rest s).known = s.known := rfl
@[simp] theorem popEvent_result (rest : List Event) (s : State) : (popEvent rest s).result = s.result := rfl
@[simp] theorem popEvent_overrun (rest : List Event) (s : State) : (popEvent rest s).overrun = s.overrun := rfl
@[simp] theorem popEvent_sticky (rest : List Event) (s : State) : (popEvent rest s).sticky = s.sticky := rfl
@[simp] theorem popEvent_ecode (rest : List Event) (s : State) : (popEvent rest s).ecode = s.ecode := rfl
@[simp] theorem popEvent_phase (rest : List Event) (s : State) : (popEvent rest s).phase = s.phase := rfl
@[simp] theorem popEvent_schedule (rest : List Event) (s : State) : (popEvent rest s).schedule = rest := rfl
@[simp] theorem popEvent_hostReads (rest : List Event) (s : State) : (popEvent rest s).hostReads = s.hostReads := rfl

/-! ### `assertReset` -/

@[simp] theorem assertReset_cw (s : State) : (assertReset s).cw = [] := rfl
@[simp] theorem assertReset_fm (s : State) : (assertReset s).fm = [] := rfl
@[simp] theorem assertReset_n (s : State) : (assertReset s).n = 0#8 := rfl
@[simp] theorem assertReset_known (s : State) : (assertReset s).known = 0#8 := rfl
@[simp] theorem assertReset_result (s : State) : (assertReset s).result = 0#8 := rfl
@[simp] theorem assertReset_overrun (s : State) : (assertReset s).overrun = false := rfl
@[simp] theorem assertReset_sticky (s : State) : (assertReset s).sticky = false := rfl
@[simp] theorem assertReset_ecode (s : State) : (assertReset s).ecode = .ok := rfl
@[simp] theorem assertReset_phase (s : State) : (assertReset s).phase = .idle := rfl
@[simp] theorem assertReset_schedule (s : State) : (assertReset s).schedule = s.schedule := rfl
@[simp] theorem assertReset_hostReads (s : State) : (assertReset s).hostReads = s.hostReads := rfl

end Sys2Proof.Machine
end

