-- ==== Sys2Proof/Laws/Ops.lean ====
section
/-! SUPPORT. What each shared operation can answer, said once: acceptance, the end of a command, the index check, the
solver's step, an event, and a step. -/

namespace Sys2Proof.Machine

/-! ### Acceptance and the ends of a command -/

theorem accept_of_idle {s : State} (h : s.phase = .idle) (run : State → Result) : accept s run = run s := by
  simp [accept, h]

theorem accept_of_solving {s : State} (h : s.phase = .solving) (run : State → Result) :
    accept s run = .next (drop s) := by
  simp [accept, h]

theorem accept_of_fatal {s : State} (h : s.phase = .fatal) (run : State → Result) : accept s run = .next s := by
  simp [accept, h]

/-- Everything acceptance can do: ignore, drop, or run. -/
theorem accept_next {s t : State} {run : State → Result} (h : accept s run = .next t) :
    s.phase = .fatal ∧ t = s ∨ s.phase = .solving ∧ t = drop s ∨ s.phase = .idle ∧ run s = .next t := by
  cases hp : s.phase with
  | idle => rw [accept_of_idle hp] at h; exact .inr (.inr ⟨rfl, h⟩)
  | solving => rw [accept_of_solving hp] at h; cases h; exact .inr (.inl ⟨rfl, rfl⟩)
  | fatal => rw [accept_of_fatal hp] at h; cases h; exact .inl ⟨rfl, rfl⟩

@[simp] theorem answer_ok (v : Byte) (s : State) :
    answer (.ok v) s = .next (complete { s with result := v }) := rfl

@[simp] theorem answer_error (c : OutcomeCode) (s : State) : answer (.error c) s = .next (raise c s) := rfl

/-- `answer` always goes on: it stores the value and completes, or raises. -/
theorem answer_next {r : Except OutcomeCode Byte} {s t : State} (h : answer r s = .next t) :
    (∃ v, r = .ok v ∧ t = complete { s with result := v }) ∨ ∃ c, r = .error c ∧ t = raise c s := by
  cases r with
  | ok v => cases h; exact .inl ⟨v, rfl, rfl⟩
  | error c => cases h; exact .inr ⟨c, rfl, rfl⟩

theorem withIndex_of_lt {addr : Byte} (h : addr.toNat < Config.nMax) (s : State) (run : Nat → State → Result) :
    withIndex addr s run = run addr.toNat s := by simp [withIndex, indexInRange, h]

theorem withIndex_of_ge {addr : Byte} (h : Config.nMax ≤ addr.toNat) (s : State) (run : Nat → State → Result) :
    withIndex addr s run = .next (raise .invalidArgument s) := by
  simp [withIndex, indexInRange, Nat.not_lt.2 h]

/-- A buffer command raises InvalidArgument on an index outside the buffers, and runs on any other. -/
theorem withIndex_next {addr : Byte} {s t : State} {run : Nat → State → Result} (h : withIndex addr s run = .next t) :
    Config.nMax ≤ addr.toNat ∧ t = raise .invalidArgument s ∨
      addr.toNat < Config.nMax ∧ run addr.toNat s = .next t := by
  rcases Nat.lt_or_ge addr.toNat Config.nMax with hlt | hge
  · rw [withIndex_of_lt hlt] at h; exact .inr ⟨hlt, h⟩
  · rw [withIndex_of_ge hge] at h; cases h; exact .inl ⟨hge, rfl⟩

@[simp] theorem withEntry_some {α : Type} (v : α) (run : α → Result) : withEntry (some v) run = run v := rfl

@[simp] theorem withEntry_none {α : Type} (run : α → Result) : withEntry none run = .fault .unwrittenRead := rfl

theorem withEntry_next {α : Type} {o : Option α} {run : α → Result} {t : State} (h : withEntry o run = .next t) :
    ∃ v, o = some v ∧ run v = .next t := by
  cases o with
  | none => cases h
  | some v => exact ⟨v, rfl, h⟩

/-! ### A command that runs -/

/-- What a command can do to a state in phase Idle: the next states of the rules of 40, 41, 42 (acceptance) and 43. -/
inductive Effect (s : State) : Instr → State → Prop
  | raised (i : Instr) (c : OutcomeCode) (hc : c ≠ .ok) : Effect s i (raise c s)
  | nop : Effect s .nop (complete s)
  | gfAdd (a b : Byte) : Effect s (.gfAdd a b) (complete { s with result := gfAdd a b })
  | gfMul (a b : Byte) : Effect s (.gfMul a b) (complete { s with result := gfMul a b })
  | gfDiv (a b : Byte) (hb : b ≠ 0#8) : Effect s (.gfDiv a b) (complete { s with result := gfQuot a b hb })
  | gfExp (e : BitVec 16) : Effect s (.gfExp e) (complete { s with result := gfExp e.toNat })
  | gfLog (v : Byte) (hv : v ≠ 0#8) : Effect s (.gfLog v) (complete { s with result := logt v hv })
  | cwWr (addr data : Byte) (h : addr.toNat < Config.nMax) :
      Effect s (.cwWr addr data) (complete { s with cw := s.cw.write addr.toNat data })
  | cwRd (addr v : Byte) (h : addr.toNat < Config.nMax) (hv : s.cw.read addr.toNat = some v) :
      Effect s (.cwRd addr) (complete { s with result := v })
  | fmWr (addr : Byte) (f : Bool) (h : addr.toNat < Config.nMax) :
      Effect s (.fmWr addr f) (complete { s with fm := s.fm.write addr.toNat f })
  | fmRd (addr : Byte) (f : Bool) (h : addr.toNat < Config.nMax) (hf : s.fm.read addr.toNat = some f) :
      Effect s (.fmRd addr) (complete { s with result := flagByte f })
  | setLen (n known : Byte) : Effect s (.setLen n known) (complete { s with n := n, known := known })
  | eraseFill (mask : List Bool) (bytes : List Byte) (hn : 0 < s.n.toNat ∧ s.n.toNat ≤ Config.nMax)
      (hk : 0 < s.known.toNat ∧ s.known.toNat < s.n.toNat) (hm : maskOf s = some mask)
      (hc : mask.count true = s.known.toNat) (hb : fixedBytes mask s = some bytes) :
      Effect s .eraseFill (beginSolve s)
  | clrStatus : Effect s .clrStatus (complete (clearSticky s))

theorem gfDiv_next {a b : Byte} {s t : State} (h : answer (gfDiv a b) s = .next t) : Effect s (.gfDiv a b) t := by
  unfold gfDiv at h
  split at h
  · cases h; exact .raised _ _ (by decide)
  · cases h; exact .gfDiv _ _ _

theorem gfLog_next {v : Byte} {s t : State} (h : answer (gfLog v) s = .next t) : Effect s (.gfLog v) t := by
  unfold gfLog at h
  split at h
  · cases h; exact .raised _ _ (by decide)
  · cases h; exact .gfLog _ _

theorem startErase_next {s t : State} (h : startErase s = .next t) : Effect s .eraseFill t := by
  unfold startErase at h
  split_ifs at h with h1 h2 h3
  · cases h; exact .raised _ _ (by decide)
  · cases h; exact .raised _ _ (by decide)
  · cases h; exact .raised _ _ (by decide)
  · obtain ⟨mask, hm, h⟩ := withEntry_next h
    split_ifs at h with h4
    · obtain ⟨bytes, hb, h⟩ := withEntry_next h
      cases h
      exact .eraseFill mask bytes (by omega) (by omega) hm h4 hb
    · cases h; exact .raised _ _ (by decide)

/-- Everything an instruction can do when it answers a next state. -/
theorem exec_next {i : Instr} {s t : State} (h : exec i s = .next t) :
    s.phase = .fatal ∧ t = s ∨ s.phase = .solving ∧ t = drop s ∨ s.phase = .idle ∧ Effect s i t := by
  cases i <;> simp only [exec, execNop, execGfAdd, execGfMul, execGfDiv, execGfExp, execGfLog, execCwWr, execCwRd,
    execFmWr, execFmRd, execSetLen, execEraseFill, execClrStatus] at h <;>
    refine (accept_next h).imp_right (Or.imp_right (And.imp_right fun h => ?_))
  case nop => cases h; exact .nop
  case gfAdd => cases h; exact .gfAdd _ _
  case gfMul => cases h; exact .gfMul _ _
  case gfDiv => exact gfDiv_next h
  case gfExp => cases h; exact .gfExp _
  case gfLog => exact gfLog_next h
  case cwWr =>
    rcases withIndex_next h with ⟨-, rfl⟩ | ⟨hlt, h⟩
    · exact .raised _ _ (by decide)
    · cases h; exact .cwWr _ _ hlt
  case cwRd =>
    rcases withIndex_next h with ⟨-, rfl⟩ | ⟨hlt, h⟩
    · exact .raised _ _ (by decide)
    · obtain ⟨v, hv, h⟩ := withEntry_next h
      cases h; exact .cwRd _ _ hlt hv
  case fmWr =>
    rcases withIndex_next h with ⟨-, rfl⟩ | ⟨hlt, h⟩
    · exact .raised _ _ (by decide)
    · cases h; exact .fmWr _ _ hlt
  case fmRd =>
    rcases withIndex_next h with ⟨-, rfl⟩ | ⟨hlt, h⟩
    · exact .raised _ _ (by decide)
    · obtain ⟨v, hv, h⟩ := withEntry_next h
      cases h; exact .fmRd _ _ hlt hv
  case setLen => cases h; exact .setLen _ _
  case eraseFill => exact startErase_next h
  case clrStatus => cases h; exact .clrStatus

/-! ### The solver's turn -/

/-- Everything the solver's turn can do: nothing, the successful end, or Unsolvable. -/
theorem solverTurn_next {s t : State} (h : solverTurn s = .next t) :
    s.phase ≠ .solving ∧ t = s ∨
      s.phase = .solving ∧ ∃ mask bytes, maskOf s = some mask ∧ fixedBytes mask s = some bytes ∧
        ((∃ xs, solve s.n.toNat (erasureCount s) (positions false mask) ((positions true mask).zip bytes) = some xs ∧
            t = writeBack (positions false mask) xs s) ∨
          solve s.n.toNat (erasureCount s) (positions false mask) ((positions true mask).zip bytes) = none ∧
            t = unsolvable s) := by
  unfold solverTurn at h
  split_ifs at h with hp
  · refine .inr ⟨hp, ?_⟩
    obtain ⟨mask, hm, h⟩ := withEntry_next h
    obtain ⟨bytes, hb, h⟩ := withEntry_next h
    refine ⟨mask, bytes, hm, hb, ?_⟩
    split at h
    · next xs hx => cases h; exact .inl ⟨xs, hx, rfl⟩
    · next hx => cases h; exact .inr ⟨hx, rfl⟩
  · cases h; exact .inl ⟨hp, rfl⟩

/-! ### A write to CMD, an event, a step -/

/-- Everything a write to CMD can do: it is ignored, dropped, runs a command, or raises IllegalCommand. -/
theorem command_next {w : Word} {s t : State} (h : command w s = .next t) :
    s.phase = .fatal ∧ t = s ∨ s.phase = .solving ∧ t = drop s ∨
      s.phase = .idle ∧ ((∃ i, decode w = .ok i ∧ Effect s i t) ∨
        (∃ e, decode w = .error e) ∧ t = raise .illegalCommand s) := by
  unfold command at h
  split at h
  · next i hi => exact (exec_next h).imp_right (Or.imp_right (And.imp_right fun he => .inl ⟨i, hi, he⟩))
  · next e he =>
    refine (accept_next h).imp_right (Or.imp_right (And.imp_right fun h => .inr ⟨⟨e, he⟩, ?_⟩))
    cases h; rfl

/-- Everything an event can do. -/
theorem runEvent_next {e : Event} {s t : State} (h : runEvent e s = .next t) :
    (∃ size addr r, e = .read size addr ∧ registerAt size addr = some r ∧
        t = { s with hostReads := registerValue r s :: s.hostReads }) ∨
      (∃ size addr w, e = .write size addr w ∧ registerAt size addr = some .cmd ∧ command w s = .next t) ∨
      (∃ size addr w r, e = .write size addr w ∧ registerAt size addr = some r ∧ r ≠ .cmd ∧ t = s) ∨
      e = .reset ∧ t = assertReset s ∨
      e = .solver ∧ solverTurn s = .next t := by
  cases e with
  | read size addr =>
    simp only [runEvent, hostRead] at h
    split at h
    · next r hr => cases h; exact .inl ⟨size, addr, r, rfl, hr, rfl⟩
    · cases h
  | write size addr w =>
    simp only [runEvent, hostWrite] at h
    split at h
    · next hr => exact .inr (.inl ⟨size, addr, w, rfl, hr, h⟩)
    · next r hne hr => cases h; exact .inr (.inr (.inl ⟨size, addr, w, r, rfl, hr, fun hc => hne hc, rfl⟩))
    · cases h
  | reset => cases h; exact .inr (.inr (.inr (.inl ⟨rfl, rfl⟩)))
  | solver => exact .inr (.inr (.inr (.inr ⟨rfl, h⟩)))

theorem step_of_nil {s : State} (h : s.schedule = []) : step s = solverTurn s := by simp [step, h]

theorem step_of_cons {s : State} {e : Event} {rest : List Event} (h : s.schedule = e :: rest) :
    step s = runEvent e (popEvent rest s) := by simp [step, h]

/-- Everything a step can do: the solver's turn when nothing is scheduled, or the next event. -/
theorem step_next {s t : State} (h : step s = .next t) :
    s.schedule = [] ∧ solverTurn s = .next t ∨
      ∃ e rest, s.schedule = e :: rest ∧ runEvent e (popEvent rest s) = .next t := by
  cases hs : s.schedule with
  | nil => rw [step_of_nil hs] at h; exact .inl ⟨rfl, h⟩
  | cons e rest => rw [step_of_cons hs] at h; exact .inr ⟨e, rest, rfl, h⟩

/-! ### Register accesses -/

@[simp] theorem registerAt_cmd : registerAt 4 (.window 0x00#5) = some .cmd := rfl

theorem runEvent_cmdWrite (w : Word) (s : State) : runEvent (cmdWrite w) s = command w s := rfl

theorem command_of_decode {w : Word} {i : Instr} (h : decode w = .ok i) (s : State) : command w s = exec i s := by
  simp [command, h]

/-- An access names CMD only if it is a 32-bit access at offset 0 (R50). -/
theorem registerAt_eq_cmd {size : Nat} {addr : BusAddr} (h : registerAt size addr = some .cmd) :
    size = 4 ∧ addr = .window 0x00#5 := by
  cases addr with
  | outside a => simp [registerAt] at h
  | window o =>
    by_cases hs : size = 4
    · subst hs
      refine ⟨rfl, ?_⟩
      revert h
      revert o
      decide
    · simp [registerAt, hs] at h

/-- Every meaning begins with R182's acceptance. -/
theorem exec_eq_accept (i : Instr) : ∃ run : State → Result, ∀ s, exec i s = accept s run := by
  cases i <;> exact ⟨_, fun _ => rfl⟩

theorem exec_of_solving (i : Instr) {s : State} (h : s.phase = .solving) : exec i s = .next (drop s) := by
  obtain ⟨run, hr⟩ := exec_eq_accept i
  rw [hr, accept_of_solving h]

theorem exec_of_fatal (i : Instr) {s : State} (h : s.phase = .fatal) : exec i s = .next s := by
  obtain ⟨run, hr⟩ := exec_eq_accept i
  rw [hr, accept_of_fatal h]

theorem step_of_cmdWrite {s : State} {w : Word} {rest : List Event} (h : s.schedule = cmdWrite w :: rest) :
    step s = command w (popEvent rest s) := step_of_cons h

/-- Everything a step can do to the block: the solver's turn, reset, a word written to CMD, or nothing but a read
recorded for the host. `rest` is what is left of the schedule. -/
theorem step_cases {s t : State} (h : step s = .next t) :
    ∃ rest,
      ((s.schedule = [] ∨ s.schedule = .solver :: rest) ∧ solverTurn (popEvent rest s) = .next t) ∨
      (s.schedule = .reset :: rest ∧ t = assertReset (popEvent rest s)) ∨
      (∃ w, s.schedule = cmdWrite w :: rest ∧ command w (popEvent rest s) = .next t) ∨
      t = popEvent rest s ∨ ∃ v, t = { popEvent rest s with hostReads := v :: s.hostReads } := by
  rcases step_next h with ⟨hs, h⟩ | ⟨e, rest, hs, h⟩
  · refine ⟨[], .inl ⟨.inl hs, ?_⟩⟩
    rwa [show popEvent [] s = s by rw [← hs]; rfl]
  · refine ⟨rest, ?_⟩
    rcases runEvent_next h with ⟨z, a, r, rfl, hr, rfl⟩ | ⟨z, a, w, rfl, hr, hc⟩ | ⟨z, a, w, r, rfl, hr, -, rfl⟩ |
      ⟨rfl, rfl⟩ | ⟨rfl, hst⟩
    · exact .inr (.inr (.inr (.inr ⟨_, rfl⟩)))
    · obtain ⟨rfl, rfl⟩ := registerAt_eq_cmd hr
      exact .inr (.inr (.inl ⟨w, hs, hc⟩))
    · exact .inr (.inr (.inr (.inl rfl)))
    · exact .inr (.inl ⟨hs, rfl⟩)
    · exact .inl ⟨.inr hs, hst⟩

end Sys2Proof.Machine
end

