-- ==== Sys2Proof/Laws/Solver.lean ====
section
/-! SUPPORT. The solver's inputs and its write-back: what the positions of a mask are, when the inputs can be read, how
many bytes are solved, and what the buffers read as afterwards (42_erasure_fill.md R150, R151, R158). -/

namespace Sys2Proof.Machine

/-! ### Positions of a mask (R151) -/

theorem mem_positions {b : Bool} {mask : List Bool} {j : Nat} :
    j ∈ positions b mask ↔ ∃ h : j < mask.length, mask[j] = b := by
  simp only [positions, List.mem_filter, List.mem_range, beq_iff_eq]
  constructor
  · rintro ⟨h, hb⟩
    exact ⟨h, by rwa [List.getD_eq_getElem _ _ h] at hb⟩
  · rintro ⟨h, hb⟩
    exact ⟨h, by rwa [List.getD_eq_getElem _ _ h]⟩

/-- The positions come in ascending order (R151). -/
theorem positions_sorted (b : Bool) (mask : List Bool) : (positions b mask).Pairwise (· < ·) :=
  List.Pairwise.filter _ List.pairwise_lt_range

theorem positions_nodup (b : Bool) (mask : List Bool) : (positions b mask).Nodup :=
  (positions_sorted b mask).imp Nat.ne_of_lt

/-- There are as many positions as entries of the mask that carry the flag. -/
theorem length_positions (b : Bool) (mask : List Bool) : (positions b mask).length = mask.count b := by
  have hm : mask = (List.range mask.length).map fun j => mask.getD j (!b) := by
    apply List.ext_getElem (by simp)
    intro j h1 h2
    rw [List.getElem_map, List.getElem_range, List.getD_eq_getElem _ _ h1]
  conv_rhs => rw [hm, List.count, List.countP_map]
  rw [positions, ← List.countP_eq_length_filter]
  rfl

/-- The two flags between them: `n - k` free positions when `k` are fixed. -/
theorem count_true_add_count_false (mask : List Bool) : mask.count true + mask.count false = mask.length :=
  List.count_true_add_count_false mask

/-! ### Reading the inputs (R150) -/

/-- The mask, when it can be read: one flag for each position below N. -/
theorem maskOf_eq_some {s : State} {mask : List Bool} :
    maskOf s = some mask ↔ mask.length = s.n.toNat ∧ ∀ j (h : j < mask.length), s.fm.read j = some mask[j] := by
  rw [maskOf, Memory.readAll_eq_some_iff]
  constructor
  · intro h
    have hl : mask.length = s.n.toNat := by simpa using (congrArg List.length h).symm
    refine ⟨hl, fun j hj => ?_⟩
    have := congrArg (fun l => l[j]?) h
    simpa [hj, hl ▸ hj] using this
  · rintro ⟨hl, h⟩
    apply List.ext_getElem (by simp [hl])
    intro j h1 h2
    simpa using h j (by simpa using h2)

/-- The mask can be read exactly if it has been written below N. -/
theorem maskOf_isSome {s : State} : (maskOf s).isSome ↔ maskWritten s := by
  rw [maskOf, Memory.readAll_isSome_iff]
  simp

/-- The fixed positions of the mask are the positions below N marked fixed. -/
theorem positions_true_eq {s : State} {mask : List Bool} (h : maskOf s = some mask) :
    positions true mask = (List.range s.n.toNat).filter (isFixed s) := by
  obtain ⟨hl, h⟩ := maskOf_eq_some.1 h
  rw [positions, hl]
  refine List.filter_congr fun j hj => ?_
  have hj' : j < mask.length := by rw [hl]; exact List.mem_range.1 hj
  simp [isFixed, h j hj', List.getElem?_eq_getElem hj']

/-- `popcount(FM[0..n-1])`, once the mask can be read. -/
theorem fixedCount_eq_count {s : State} {mask : List Bool} (h : maskOf s = some mask) :
    fixedCount s = mask.count true := by
  rw [fixedCount, ← positions_true_eq h, length_positions]

/-- The bytes at the fixed positions can be read exactly if they have been written. -/
theorem fixedBytes_isSome {s : State} {mask : List Bool} (h : maskOf s = some mask) :
    (fixedBytes mask s).isSome ↔ fixedWritten s := by
  rw [fixedBytes, Memory.readAll_isSome_iff, positions_true_eq h]
  simp

/-- A position of the mask is free exactly if it is below N and not marked fixed. -/
theorem mem_free_iff {s : State} {mask : List Bool} (h : maskOf s = some mask) {j : Nat} :
    j ∈ positions false mask ↔ j < s.n.toNat ∧ isFixed s j = false := by
  obtain ⟨hl, h⟩ := maskOf_eq_some.1 h
  rw [mem_positions]
  constructor
  · rintro ⟨hj, hf⟩
    exact ⟨hl ▸ hj, by simp [isFixed, h j hj, hf]⟩
  · rintro ⟨hj, hf⟩
    have hj' : j < mask.length := hl ▸ hj
    exact ⟨hj', by simpa [isFixed, h j hj'] using hf⟩

/-- Inputs that are ready can be read, and the free list has the erasure count's length. -/
theorem inputsReady_readable {s : State} (h : inputsReady s) :
    ∃ mask bytes, maskOf s = some mask ∧ fixedBytes mask s = some bytes ∧ mask.length = s.n.toNat ∧
      mask.count true = s.known.toNat ∧ (positions false mask).length = erasureCount s := by
  obtain ⟨-, -, -, hm, hc, hf⟩ := h
  obtain ⟨mask, hmask⟩ := Option.isSome_iff_exists.1 (maskOf_isSome.2 hm)
  obtain ⟨bytes, hbytes⟩ := Option.isSome_iff_exists.1 ((fixedBytes_isSome hmask).2 hf)
  have hl := (maskOf_eq_some.1 hmask).1
  have hk : mask.count true = s.known.toNat := by rw [← fixedCount_eq_count hmask, hc]
  refine ⟨mask, bytes, hmask, hbytes, hl, hk, ?_⟩
  have := count_true_add_count_false mask
  rw [length_positions, erasureCount]
  omega

/-! ### The values solved -/

theorem length_eliminate {k : Nat} {rows : List Equation} {tri : List PivotRow} (h : eliminate k rows = some tri) :
    tri.length = k := by
  induction k generalizing rows tri with
  | zero => simp only [eliminate, Option.some.injEq] at h; simp [← h]
  | succ k ih =>
    simp only [eliminate] at h
    split_ifs at h
    obtain ⟨below, hb, rfl⟩ := Option.map_eq_some_iff.1 h
    simp [ih hb]

@[simp] theorem length_backSubstitute (tri : List PivotRow) : (backSubstitute tri).length = tri.length := by
  induction tri with
  | nil => rfl
  | cons row below ih => simp [backSubstitute, ih]

/-- The solver solves one byte for each equation. -/
theorem length_solve {n m : Nat} {free : List Nat} {fixed : List (Nat × Byte)} {xs : List Byte}
    (h : solve n m free fixed = some xs) : xs.length = m := by
  obtain ⟨tri, ht, rfl⟩ := Option.map_eq_some_iff.1 h
  rw [length_backSubstitute, length_eliminate ht]

/-! ### Write-back (R158) -/

/-- A position that is not free reads as before. -/
theorem read_writeBack_other {s : State} {free : List Nat} {xs : List Byte} {j : Nat} (h : j ∉ free) :
    (writeBack free xs s).cw.read j = s.cw.read j := by
  rw [writeBack_cw]
  refine Memory.read_writeAll_other fun hj => h ?_
  obtain ⟨p, hp, rfl⟩ := List.mem_map.1 hj
  exact (List.of_mem_zip (a := p.1) (b := p.2) hp).1

/-- Free position `free[c]` reads as the solved value `xs[c]`. -/
theorem read_writeBack_free {s : State} {free : List Nat} {xs : List Byte} (hn : free.Nodup)
    (hl : xs.length = free.length) {c : Nat} (hc : c < free.length) :
    (writeBack free xs s).cw.read free[c] = some (xs[c]'(hl ▸ hc)) := by
  rw [writeBack_cw]
  have hz : c < (free.zip xs).length := by simp [hl, hc]
  have hmem : (free[c], xs[c]'(hl ▸ hc)) ∈ free.zip xs := by
    have := List.getElem_mem hz
    rwa [List.getElem_zip] at this
  refine Memory.read_writeAll_mem ?_ hmem
  rwa [List.map_fst_zip (by omega)]

end Sys2Proof.Machine
end

