-- ==== Sys2Proof/Laws/Elimination.lean ====
section
/-! SUPPORT. What elimination and back-substitution do, over any table of products that obeys the field laws: the values
they give are the one solution of the system, and Unsolvable means that the columns are dependent (42_erasure_fill.md
R155 to R159). The field laws (40_field_ops.md R107) are a hypothesis here. -/

namespace Sys2Proof.Machine

/-- The field laws that elimination uses (R107). -/
structure FieldLaws : Prop where
  mul_comm : ∀ a b, gfMul a b = gfMul b a
  mul_assoc : ∀ a b c, gfMul (gfMul a b) c = gfMul a (gfMul b c)
  mul_add : ∀ a b c, gfMul a (gfAdd b c) = gfAdd (gfMul a b) (gfMul a c)
  mul_quot : ∀ a b (hb : b ≠ 0#8), gfMul (gfQuot a b hb) b = a
  cancel : ∀ a b c, c ≠ 0#8 → gfMul a c = gfMul b c → a = b

/-! ### Sums -/

theorem gfAdd_comm (a b : Byte) : gfAdd a b = gfAdd b a := BitVec.xor_comm a b

theorem gfAdd_assoc (a b c : Byte) : gfAdd (gfAdd a b) c = gfAdd a (gfAdd b c) := BitVec.xor_assoc a b c

/-- Subtraction is addition: a term moves to the other side as it is (R13). -/
theorem gfAdd_eq_iff {a b c : Byte} : gfAdd a b = c ↔ a = gfAdd c b := by
  constructor <;> rintro rfl <;> rw [gfAdd_assoc, gfAdd_self, gfAdd_zero]

theorem foldl_gfAdd (a : Byte) (vs : List Byte) : vs.foldl gfAdd a = gfAdd a (xorSum vs) := by
  induction vs generalizing a with
  | nil => exact (gfAdd_zero a).symm
  | cons v vs ih =>
    change vs.foldl gfAdd (gfAdd a v) = gfAdd a (vs.foldl gfAdd (gfAdd 0#8 v))
    rw [zero_gfAdd, ih, ih v, gfAdd_assoc]

@[simp] theorem xorSum_nil : xorSum [] = 0#8 := rfl

@[simp] theorem xorSum_cons (v : Byte) (vs : List Byte) : xorSum (v :: vs) = gfAdd v (xorSum vs) := by
  rw [xorSum, List.foldl_cons, zero_gfAdd, foldl_gfAdd]

theorem xorSum_append (us vs : List Byte) : xorSum (us ++ vs) = gfAdd (xorSum us) (xorSum vs) := by
  induction us with
  | nil => simp
  | cons u us ih => simp [ih, gfAdd_assoc]

/-- The order of accumulation does not matter (R153). -/
theorem xorSum_perm {us vs : List Byte} (h : us.Perm vs) : xorSum us = xorSum vs := by
  induction h with
  | nil => rfl
  | cons a _ ih => simp [ih]
  | swap a b l => simp only [xorSum_cons, ← gfAdd_assoc, gfAdd_comm a b]
  | trans _ _ ih1 ih2 => exact ih1.trans ih2

/-! ### Rows and their solutions -/

/-- The left side of a row: XOR over its columns of coefficient times value (R152). -/
def dot (coef xs : List Byte) : Byte := xorSum (List.zipWith gfMul coef xs)

/-- The values solve the row. -/
def Equation.holds (e : Equation) (xs : List Byte) : Prop := dot e.coef xs = e.rhs

@[simp] theorem dot_nil (xs : List Byte) : dot [] xs = 0#8 := rfl

@[simp] theorem dot_cons (a : Byte) (as : List Byte) (x : Byte) (xs : List Byte) :
    dot (a :: as) (x :: xs) = gfAdd (gfMul a x) (dot as xs) := by simp [dot]

/-- A row less a multiple of another has the left side less the same multiple of the other's. -/
theorem dot_sub (F : FieldLaws) (f : Byte) {as bs xs : List Byte} (ha : as.length = xs.length)
    (hb : bs.length = xs.length) :
    dot (List.zipWith (fun x y => gfAdd x (gfMul f y)) as bs) xs = gfAdd (dot as xs) (gfMul f (dot bs xs)) := by
  induction xs generalizing as bs with
  | nil =>
    rw [List.length_eq_zero_iff.1 ha, List.length_eq_zero_iff.1 hb]
    simp
  | cons x xs ih =>
    obtain ⟨a, as, rfl⟩ := List.exists_cons_of_length_eq_add_one ha
    obtain ⟨b, bs, rfl⟩ := List.exists_cons_of_length_eq_add_one hb
    simp only [List.length_cons, Nat.add_right_cancel_iff] at ha hb
    simp only [List.zipWith_cons_cons, dot_cons, ih ha hb, F.mul_add]
    rw [F.mul_comm (gfAdd a (gfMul f b)) x, F.mul_add, F.mul_comm x a, F.mul_comm x (gfMul f b), F.mul_assoc]
    simp only [gfAdd]
    ac_rfl

theorem reduceRow_of_eq {pivot e : Equation} {h : pivot.lead ≠ 0#8} (h0 : e.lead = 0#8) :
    reduceRow pivot h e = ⟨e.coef.tail, e.rhs⟩ := by simp [reduceRow, h0]

theorem reduceRow_of_ne {pivot e : Equation} {h : pivot.lead ≠ 0#8} (h0 : e.lead ≠ 0#8) :
    reduceRow pivot h e =
      ⟨List.zipWith (fun x y => gfAdd x (gfMul (gfQuot e.lead pivot.lead h) y)) e.coef.tail pivot.coef.tail,
        gfAdd e.rhs (gfMul (gfQuot e.lead pivot.lead h) pivot.rhs)⟩ := by simp [reduceRow, h0]

/-- Reducing a row by the pivot row keeps its solutions among those of the pivot row (R155). -/
theorem reduceRow_holds (F : FieldLaws) {pivot e : Equation} {h : pivot.lead ≠ 0#8} {x : Byte} {xs : List Byte}
    (hp : pivot.coef.length = xs.length + 1) (he : e.coef.length = xs.length + 1) (hx : pivot.holds (x :: xs)) :
    (reduceRow pivot h e).holds xs ↔ e.holds (x :: xs) := by
  obtain ⟨⟨_ | ⟨pa, pas⟩, pr⟩, ⟨_ | ⟨a, as⟩, r⟩⟩ := pivot, e
  · simp at hp
  · simp at hp
  · simp at he
  · simp only [List.length_cons, Nat.add_right_cancel_iff] at hp he
    simp only [Equation.holds, dot_cons] at hx ⊢
    by_cases h0 : a = 0#8
    · rw [reduceRow_of_eq (by simpa [Equation.lead] using h0), h0, zero_gfMul, zero_gfAdd]
      rfl
    · rw [reduceRow_of_ne (by simpa [Equation.lead] using h0)]
      change dot (List.zipWith (fun x y => gfAdd x (gfMul (gfQuot a pa h) y)) as pas) xs =
        gfAdd r (gfMul (gfQuot a pa h) pr) ↔ _
      have hq : gfMul (gfQuot a pa h) pa = a := F.mul_quot a pa h
      simp only [dot_sub F _ he hp, ← hx, F.mul_add, ← F.mul_assoc, hq]
      constructor
      · intro hd
        rw [gfAdd_eq_iff] at hd
        rw [hd]
        simp only [gfAdd]
        calc _ = r ^^^ ((gfMul a x ^^^ gfMul a x) ^^^ (gfMul (gfQuot a pa h) (dot pas xs) ^^^
              gfMul (gfQuot a pa h) (dot pas xs))) := by ac_rfl
          _ = r := by simp
      · rintro rfl
        simp only [gfAdd]
        symm
        calc _ = (gfMul a x ^^^ gfMul a x) ^^^ (dot as xs ^^^ gfMul (gfQuot a pa h) (dot pas xs)) := by ac_rfl
          _ = _ := by simp

/-! ### The pivot (R154) -/

theorem pivotScan_spec {best : Byte} {p r : Nat} {xs : List Byte} {all : List Byte} (hp : all[p]? = some best)
    (hr : all.drop r = xs) (hmax : ∀ j < r, ∀ v, all[j]? = some v → v ≤ best) (hpr : p < r) :
    pivotScan best p r xs < all.length ∧ ∀ (j : Nat) (v w : Byte), all[pivotScan best p r xs]? = some w → all[j]? = some v → v ≤ w := by
  induction xs generalizing best p r with
  | nil =>
    have hlen : all.length ≤ r := List.drop_eq_nil_iff.1 hr
    obtain ⟨hpl, -⟩ := List.getElem?_eq_some_iff.1 hp
    refine ⟨hpl, fun j v w hw hv => ?_⟩
    obtain ⟨hj, -⟩ := List.getElem?_eq_some_iff.1 hv
    have : w = best := by simpa [pivotScan, hp] using hw.symm
    rw [this]
    exact hmax j (by omega) v hv
  | cons x xs ih =>
    have hx : all[r]? = some x := by
      rw [← List.head?_drop, hr, List.head?_cons]
    have hr' : all.drop (r + 1) = xs := by
      rw [← List.tail_drop, hr, List.tail_cons]
    unfold pivotScan
    split_ifs with hlt
    · refine ih hx hr' (fun j hj v hv => ?_) (Nat.lt_succ_self r)
      rcases Nat.lt_succ_iff_lt_or_eq.1 hj with hj | rfl
      · have := hmax j hj v hv
        bv_omega
      · rw [hx, Option.some.injEq] at hv
        exact hv ▸ BitVec.le_refl _
    · refine ih hp hr' (fun j hj v hv => ?_) (by omega)
      rcases Nat.lt_succ_iff_lt_or_eq.1 hj with hj | rfl
      · exact hmax j hj v hv
      · rw [hx, Option.some.injEq] at hv
        exact hv ▸ BitVec.not_lt.1 hlt

/-- The pivot index is a row, and its entry is the largest (R154). -/
theorem pivotIndex_spec {col : List Byte} (h : col ≠ []) :
    ∃ hp : pivotIndex col < col.length, ∀ v ∈ col, v ≤ col[pivotIndex col] := by
  obtain ⟨x, xs, rfl⟩ := List.exists_cons_of_ne_nil h
  obtain ⟨hlt, hmax⟩ := pivotScan_spec (best := x) (p := 0) (r := 1) (xs := xs) (all := x :: xs) (by simp) (by simp)
    (fun j hj v hv => by
      obtain rfl : j = 0 := by omega
      simp only [List.getElem?_cons_zero, Option.some.injEq] at hv
      exact hv ▸ BitVec.le_refl _) (by omega)
  refine ⟨hlt, fun v hv => ?_⟩
  obtain ⟨j, hj, rfl⟩ := List.getElem_of_mem hv
  exact hmax j _ _ (List.getElem?_eq_getElem hlt) (List.getElem?_eq_getElem hj)

/-- The exchange loses no row: the rows are the pivot row and those below it (R155). -/
theorem perm_rowsBelow {rows : List Equation} {p : Nat} (hp : p < rows.length) :
    rows.Perm (rows[p] :: rowsBelow rows p) := by
  obtain ⟨e, es, rfl⟩ := List.exists_cons_of_length_pos (Nat.zero_lt_of_lt hp)
  cases p with
  | zero => simp [rowsBelow]
  | succ p =>
    have hp' : p < es.length := by simpa using hp
    simp only [rowsBelow, List.headD_cons, List.set_cons_succ, List.tail_cons, List.getElem_cons_succ]
    have h1 : es = es.take p ++ es[p] :: es.drop (p + 1) := by simp
    have h2 : es.set p e = es.take p ++ e :: es.drop (p + 1) := by simp [List.set_eq_take_append_cons_drop, hp']
    rw [h2]
    conv_lhs => rw [h1]
    refine (List.Perm.cons e List.perm_middle).trans ((List.Perm.swap _ _ _).trans (List.Perm.cons _ ?_))
    exact List.perm_middle.symm

/-! ### Elimination and back-substitution -/

/-- A row of the triangular matrix, read as an equation. -/
def PivotRow.holds (row : PivotRow) (x : Byte) (xs : List Byte) : Prop :=
  gfAdd (gfMul row.diag x) (dot row.right xs) = row.rhs

/-- Back-substitution solves a row of the triangular matrix, in one way (R157). -/
theorem PivotRow.holds_iff (F : FieldLaws) (row : PivotRow) (x : Byte) (xs : List Byte) :
    row.holds x xs ↔ x = gfQuot (substituted row xs) row.diag row.diag_ne := by
  have hq := F.mul_quot (substituted row xs) row.diag row.diag_ne
  unfold PivotRow.holds
  rw [gfAdd_eq_iff, F.mul_comm row.diag x]
  change gfMul x row.diag = substituted row xs ↔ _
  constructor
  · intro h
    exact F.cancel _ _ _ row.diag_ne (h.trans hq.symm)
  · rintro rfl
    exact hq

/-- One column of elimination, its pivot row named. -/
theorem eliminate_succ {k : Nat} {rows : List Equation} {pivot : Equation}
    (hq : rows.getD (pivotIndex (rows.map Equation.lead)) emptyEquation = pivot) :
    eliminate (k + 1) rows =
      if h : pivot.lead = 0#8 then none
      else (eliminate k ((rowsBelow rows (pivotIndex (rows.map Equation.lead))).map (reduceRow pivot h))).map
        fun below => ⟨pivot.lead, h, pivot.coef.tail, pivot.rhs⟩ :: below := by
  subst hq
  rfl

/-- What elimination does: when it succeeds, the values of back-substitution are the one solution of the rows; when it
does not, the columns of the rows are dependent (R155, R156, R159). -/
theorem eliminate_spec (F : FieldLaws) {k : Nat} {rows : List Equation} (hrows : rows.length = k)
    (hcols : ∀ e ∈ rows, e.coef.length = k) :
    (∀ tri, eliminate k rows = some tri →
        ∀ xs : List Byte, xs.length = k → ((∀ e ∈ rows, e.holds xs) ↔ xs = backSubstitute tri)) ∧
      (eliminate k rows = none →
        ∃ xs : List Byte, xs.length = k ∧ (∃ x ∈ xs, x ≠ 0#8) ∧ ∀ e ∈ rows, dot e.coef xs = 0#8) := by
  induction k generalizing rows with
  | zero =>
    refine ⟨fun tri ht xs hx => ?_, fun h => by simp [eliminate] at h⟩
    simp only [eliminate, Option.some.injEq] at ht
    rw [List.length_eq_zero_iff.1 hrows, List.length_eq_zero_iff.1 hx, ← ht]
    simp [backSubstitute]
  | succ k ih =>
    have hne : rows.map Equation.lead ≠ [] := by
      intro h
      simp only [List.map_eq_nil_iff] at h
      simp [h] at hrows
    obtain ⟨hp, hmax⟩ := pivotIndex_spec hne
    set p := pivotIndex (rows.map Equation.lead) with hpdef
    have hpr : p < rows.length := by simpa using hp
    have hget : rows.getD p emptyEquation = rows[p] := List.getD_eq_getElem _ _ hpr
    have hperm := perm_rowsBelow hpr
    have hpc : rows[p].coef.length = k + 1 := hcols _ (List.getElem_mem hpr)
    have hbl : (rowsBelow rows p).length = k := by
      have := hperm.length_eq
      simp only [List.length_cons] at this
      omega
    have hbc : ∀ e ∈ rowsBelow rows p, e.coef.length = k + 1 := fun e he =>
      hcols e (hperm.mem_iff.2 (List.mem_cons_of_mem _ he))
    have hall : ∀ P : Equation → Prop, (∀ e ∈ rows, P e) ↔ P rows[p] ∧ ∀ e ∈ rowsBelow rows p, P e := fun P => by
      rw [← List.forall_mem_cons]
      exact ⟨fun h e he => h e (hperm.mem_iff.2 he), fun h e he => h e (hperm.mem_iff.1 he)⟩
    obtain ⟨a, as, hcoef⟩ := List.exists_cons_of_length_eq_add_one hpc
    have hlead : rows[p].lead = a := by simp [Equation.lead, hcoef]
    have hasl : as.length = k := by simpa [hcoef] using hpc
    rw [eliminate_succ hget, ← hpdef]
    split_ifs with h0
    · refine ⟨fun tri ht => by simp at ht, fun _ => ⟨1#8 :: List.replicate k 0#8, by simp, ⟨1#8, by simp, by decide⟩, ?_⟩⟩
      intro e he
      obtain ⟨b, bs, hb⟩ := List.exists_cons_of_length_eq_add_one (hcols e he)
      have hbl : bs.length = k := by simpa [hb] using hcols e he
      have hb0 : b = 0#8 := by
        have := hmax e.lead (List.mem_map_of_mem he)
        rw [List.getElem_map, h0] at this
        simpa [Equation.lead, hb] using this
      have hz : ∀ (cs : List Byte) (k : Nat), dot cs (List.replicate k 0#8) = 0#8 := by
        intro cs
        induction cs with
        | nil => simp
        | cons c cs ihc =>
          intro k
          cases k with
          | zero => rfl
          | succ k => simp [List.replicate_succ, ihc]
      rw [hb, dot_cons, hb0, zero_gfMul, zero_gfAdd, hz]
    · have hredl : ((rowsBelow rows p).map (reduceRow rows[p] h0)).length = k := by simpa using hbl
      have hredc : ∀ e ∈ (rowsBelow rows p).map (reduceRow rows[p] h0), e.coef.length = k := by
        intro e he
        obtain ⟨e', he', rfl⟩ := List.mem_map.1 he
        have := hbc e' he'
        unfold reduceRow
        split_ifs <;> simp [this, hpc]
      obtain ⟨ihs, ihn⟩ := ih hredl hredc
      constructor
      · intro tri ht xs hx
        obtain ⟨below, hb, rfl⟩ := Option.map_eq_some_iff.1 ht
        obtain ⟨x, xs, rfl⟩ := List.exists_cons_of_length_eq_add_one hx
        have hxl : xs.length = k := by simpa using hx
        rw [hall]
        have hpiv : rows[p].holds (x :: xs) ↔
            (⟨rows[p].lead, h0, rows[p].coef.tail, rows[p].rhs⟩ : PivotRow).holds x xs := by
          simp [Equation.holds, PivotRow.holds, hcoef, hlead]
        have hbelow : rows[p].holds (x :: xs) →
            ((∀ e ∈ rowsBelow rows p, e.holds (x :: xs)) ↔ xs = backSubstitute below) := by
          intro hx0
          rw [← ihs below hb xs hxl, List.forall_mem_map]
          refine forall₂_congr fun e he => (reduceRow_holds F (by rw [hpc, hxl]) ?_ hx0).symm
          rw [hbc e he, hxl]
        rw [and_congr_right_iff.2 hbelow, hpiv, PivotRow.holds_iff F, backSubstitute, List.cons_eq_cons]
        constructor
        · rintro ⟨h1, rfl⟩
          exact ⟨h1, rfl⟩
        · rintro ⟨h1, h2⟩
          exact ⟨h2 ▸ h1, h2⟩
      · intro hnone
        obtain ⟨xs, hxl, ⟨x, hx, hx0⟩, hk⟩ := ihn (by simpa using hnone)
        let row : PivotRow := ⟨rows[p].lead, h0, rows[p].coef.tail, 0#8⟩
        let x0 := gfQuot (substituted row xs) row.diag row.diag_ne
        have hrow : row.holds x0 xs := (PivotRow.holds_iff F row x0 xs).2 rfl
        refine ⟨x0 :: xs, by simp [hxl], ⟨x, List.mem_cons_of_mem _ hx, hx0⟩, ?_⟩
        have hp0 : dot rows[p].coef (x0 :: xs) = 0#8 := by
          simpa [PivotRow.holds, row, hcoef, hlead] using hrow
        rw [hall fun e => dot e.coef (x0 :: xs) = 0#8]
        refine ⟨hp0, fun e he => ?_⟩
        have hke := hk _ (List.mem_map_of_mem he)
        have h0' : (⟨rows[p].coef, 0#8⟩ : Equation).lead ≠ 0#8 := h0
        refine (reduceRow_holds F (pivot := ⟨rows[p].coef, 0#8⟩) (e := ⟨e.coef, 0#8⟩) (h := h0') (x := x0) (xs := xs)
          (by rw [hxl]; exact hpc) (by rw [hxl]; exact hbc e he) hp0).1 ?_
        by_cases h1 : e.lead = 0#8
        · rw [reduceRow_of_eq h1] at hke
          rw [reduceRow_of_eq (e := ⟨e.coef, 0#8⟩) h1]
          exact hke
        · rw [reduceRow_of_ne h1] at hke
          rw [reduceRow_of_ne (e := ⟨e.coef, 0#8⟩) h1]
          simp only [Equation.holds, gfMul_zero, gfAdd_zero]
          exact hke

/-- When the solver succeeds, its values are the one solution of the system of R152 (R159). -/
theorem solve_spec (F : FieldLaws) {n : Nat} {free : List Nat} {fixed : List (Nat × Byte)} {xs : List Byte}
    (h : solve n free.length free fixed = some xs) (ys : List Byte) (hy : ys.length = free.length) :
    (∀ i < free.length, dot (free.map (weight n i)) ys = xorSum (fixed.map fun p => gfMul p.2 (weight n i p.1))) ↔
      ys = xs := by
  obtain ⟨tri, ht, rfl⟩ := Option.map_eq_some_iff.1 h
  have := (eliminate_spec F (k := free.length) (rows := system n free.length free fixed) (by simp [system])
    (by simp [system, equation])).1 tri ht ys hy
  rw [← this]
  simp [system, equation, Equation.holds]

/-- The solver reports Unsolvable only if the weights of the free positions are dependent (R156). -/
theorem solve_none (F : FieldLaws) {n : Nat} {free : List Nat} {fixed : List (Nat × Byte)}
    (h : solve n free.length free fixed = none) :
    ∃ xs : List Byte, xs.length = free.length ∧ (∃ x ∈ xs, x ≠ 0#8) ∧
      ∀ i < free.length, dot (free.map (weight n i)) xs = 0#8 := by
  obtain ⟨xs, hx, hne, h0⟩ := (eliminate_spec F (k := free.length) (rows := system n free.length free fixed)
    (by simp [system]) (by simp [system, equation])).2 (by simpa [solve] using h)
  exact ⟨xs, hx, hne, by simpa [system, equation] using h0⟩

end Sys2Proof.Machine
end

