-- ==== Sys2Proof/Laws/Parity.lean ====
section
/-! SUPPORT. What a successful solver step writes, in terms of the parity checks (42_erasure_fill.md R152, R158, R159).
The field laws are a hypothesis, as in Elimination.lean. -/

namespace Sys2Proof.Machine

/-- Every position below the mask's length is free or fixed. -/
theorem perm_positions (mask : List Bool) :
    (List.range mask.length).Perm (positions false mask ++ positions true mask) := by
  have := (List.filter_append_perm (fun j => mask.getD j true == false) (List.range mask.length)).symm
  refine this.trans (List.Perm.append_left _ ?_)
  rw [positions]
  refine List.Perm.of_eq (List.filter_congr fun j hj => ?_)
  have hj' := List.mem_range.1 hj
  rw [List.getD_eq_getElem _ _ hj', List.getD_eq_getElem _ _ hj']
  cases mask[j] <;> simp

/-- A parity check is the free positions' part plus the fixed positions' part (R152). -/
theorem syndrome_split (F : FieldLaws) (mask : List Bool) (c : Nat → Byte) (i : Nat) :
    syndrome mask.length c i =
      gfAdd (dot ((positions false mask).map (weight mask.length i)) ((positions false mask).map c))
      (xorSum ((positions true mask).map fun j => gfMul (c j) (weight mask.length i j))) := by
  unfold syndrome dot
  rw [xorSum_perm (List.Perm.map _ (perm_positions mask)), List.map_append, xorSum_append]
  congr 2
  rw [List.zipWith_map, List.zipWith_self]
  exact List.map_congr_left fun j _ => F.mul_comm _ _

/-- What a successful solver step writes: of the words with the fixed bytes, exactly those that satisfy the parity checks
have the written values at the free positions (R152, R159). -/
theorem solverTurn_solution (F : FieldLaws) {s t : State} (hp : s.phase = .solving) (hr : inputsReady s)
    (ht : solverTurn s = .next t) (hti : t.phase = .idle) :
    ∃ mask xs, maskOf s = some mask ∧ mask.length = s.n.toNat ∧ xs.length = (positions false mask).length ∧
      t = writeBack (positions false mask) xs s ∧
      ∀ c : Nat → Byte, (∀ j < s.n.toNat, isFixed s j = true → s.cw.read j = some (c j)) →
        (parityHolds s.n.toNat (s.n.toNat - s.known.toNat) c ↔ (positions false mask).map c = xs) := by
  rcases solverTurn_next ht with ⟨h, -⟩ | ⟨-, mask, bytes, hm, hb, ⟨xs, hx, rfl⟩ | ⟨hx, rfl⟩⟩
  · exact absurd hp h
  · obtain ⟨mask', -, hm', -, hl, -, hfl⟩ := inputsReady_readable hr
    obtain rfl : mask' = mask := by rw [hm] at hm'; exact (Option.some.inj hm').symm
    rw [← hfl] at hx
    refine ⟨mask', xs, hm, hl, length_solve hx, rfl, fun c hc => ?_⟩
    have hpt := positions_true_eq hm
    have hbc : bytes = (positions true mask').map c := by
      have := Memory.readAll_eq_some_iff.1 hb
      have h2 : (positions true mask').map s.cw.read = ((positions true mask').map c).map some := by
        rw [List.map_map]
        refine List.map_congr_left fun j hj => ?_
        rw [hpt, List.mem_filter, List.mem_range] at hj
        exact hc j hj.1 hj.2
      rw [h2] at this
      exact (List.map_injective_iff.2 (Option.some_injective _) this).symm
    have hmap : ∀ i, ((positions true mask').zip bytes).map (fun p => gfMul p.2 (weight s.n.toNat i p.1)) =
        (positions true mask').map fun j => gfMul (c j) (weight s.n.toNat i j) := by
      intro i
      rw [hbc]
      generalize positions true mask' = l
      induction l with
      | nil => rfl
      | cons a l ih => simp [ih]
    rw [← solve_spec F hx ((positions false mask').map c) (by simp)]
    unfold parityHolds
    rw [show s.n.toNat - s.known.toNat = (positions false mask').length from hfl.symm]
    refine forall₂_congr fun i _ => ?_
    rw [hmap, ← hl, syndrome_split F, gfAdd_eq_iff, zero_gfAdd]
  · cases hti

end Sys2Proof.Machine
end

