-- ==== Sys2Proof/Laws/PerInstr.lean ====
section
/-! SUPPORT. The fields of an encoded command, and for every command that its encoding selects its own row of the opcode
map and carries its row's opcode (30_encoding.md R72, R74). -/

namespace Sys2Proof

/-! ### The fields of a frame (R71) -/

/-- Bit `i` of a frame. -/
theorem frame_getLsbD (op : BitVec 4) (fb : Byte) (fa : BitVec 16) (i : Nat) :
    (frame op fb fa).getLsbD i = if i < 16 then fa.getLsbD i else if i < 24 then fb.getLsbD (i - 16)
      else if i < 28 then false else op.getLsbD (i - 28) := by
  unfold frame
  simp only [BitVec.getLsbD_or, BitVec.getLsbD_shiftLeft, BitVec.getLsbD_setWidth]
  split_ifs with h1 h2 h3
  · simp [show i < 28 by omega, h1, show i < 32 by omega]
  · simp [show i < 28 by omega, h1, show i < 32 by omega, show i - 16 < 32 by omega,
      BitVec.getLsbD_of_ge fa i (by omega)]
  · simp [h3, h1, show i < 32 by omega, show i - 16 < 32 by omega,
      BitVec.getLsbD_of_ge fa i (by omega), BitVec.getLsbD_of_ge fb (i - 16) (by omega)]
  · rw [BitVec.getLsbD_of_ge fa i (by omega), BitVec.getLsbD_of_ge fb (i - 16) (by omega)]
    by_cases h : i < 32
    · simp [h, h3, show i - 28 < 32 by omega]
    · simp [h, BitVec.getLsbD_of_ge op (i - 28) (by omega)]

@[simp] theorem frame_op (op : BitVec 4) (fb : Byte) (fa : BitVec 16) : Word.op (frame op fb fa) = op := by
  apply BitVec.eq_of_getLsbD_eq
  intro i hi
  simp [Word.op, frame_getLsbD, hi, show ¬ 28 + i < 16 by omega, show ¬ 28 + i < 24 by omega]

@[simp] theorem frame_fb (op : BitVec 4) (fb : Byte) (fa : BitVec 16) : Word.fb (frame op fb fa) = fb := by
  apply BitVec.eq_of_getLsbD_eq
  intro i hi
  simp [Word.fb, frame_getLsbD, hi, show 16 + i < 24 by omega]

@[simp] theorem frame_fa (op : BitVec 4) (fb : Byte) (fa : BitVec 16) : Word.fa (frame op fb fa) = fa := by
  apply BitVec.eq_of_getLsbD_eq
  intro i hi
  simp [Word.fa, frame_getLsbD, hi]

/-- FA[7:0] of an 8-bit operand zero-extended into FA. -/
@[simp] theorem frame_fa8 (op : BitVec 4) (fb a : Byte) : Word.fa8 (frame op fb (a.setWidth 16)) = a := by
  apply BitVec.eq_of_getLsbD_eq
  intro i hi
  simp [Word.fa8, frame_getLsbD, hi, show i < 16 by omega]

/-- FB[0] of a flag zero-extended into FB. -/
@[simp] theorem frame_flag (op : BitVec 4) (f : Bool) (fa : BitVec 16) :
    Word.flag (frame op ((BitVec.ofBool f).setWidth 8) fa) = f := by
  rw [Word.flag, frame_getLsbD]
  cases f <;> rfl

/-- Masking a frame masks its fields; the reserved field is 0 already. -/
theorem frame_and (op : BitVec 4) (fb : Byte) (fa : BitVec 16) (w : Word) :
    frame op fb fa &&& w = frame (op &&& Word.op w) (fb &&& Word.fb w) (fa &&& Word.fa w) := by
  apply BitVec.eq_of_getLsbD_eq
  intro i hi
  rw [BitVec.getLsbD_and, frame_getLsbD, frame_getLsbD]
  simp only [Word.op, Word.fb, Word.fa, BitVec.getLsbD_and, BitVec.getLsbD_extractLsb']
  split_ifs with h1 h2 h3
  · simp [h1]
  · simp [show i - 16 < 8 by omega, show 16 + (i - 16) = i by omega]
  · simp
  · simp [show i - 28 < 4 by omega, show 28 + (i - 28) = i by omega]

/-- The frame as R74 writes it, as a number: `(OP << 28) | (FB << 16) | FA` with disjoint fields. -/
theorem frame_toNat (op : BitVec 4) (fb : Byte) (fa : BitVec 16) :
    (frame op fb fa).toNat = op.toNat * 2 ^ 28 + fb.toNat * 2 ^ 16 + fa.toNat := by
  have h1 := op.isLt
  have h2 := fb.isLt
  have h3 := fa.isLt
  simp only [frame, BitVec.toNat_or, BitVec.toNat_shiftLeft, BitVec.toNat_setWidth]
  rw [Nat.mod_eq_of_lt (a := op.toNat) (by omega), Nat.mod_eq_of_lt (a := fb.toNat) (by omega),
    Nat.mod_eq_of_lt (a := fa.toNat) (by omega), Nat.shiftLeft_eq, Nat.shiftLeft_eq, Nat.mod_eq_of_lt (by omega),
    Nat.mod_eq_of_lt (by omega), Nat.mul_comm op.toNat, Nat.mul_comm fb.toNat, Nat.lor_assoc,
    ← Nat.two_pow_add_eq_or_of_lt (b := fa.toNat) (by omega), ← Nat.two_pow_add_eq_or_of_lt (by omega), Nat.add_assoc]

/-- An 8-bit operand leaves FA[15:8] at 0. -/
theorem setWidth_and_high : ∀ a : Byte, a.setWidth 16 &&& 0xFF00#16 = 0#16 := by decide +kernel

/-- The rows of formats FAB, FAD and FNK keep only the opcode of their commands' words. -/
theorem frame_and_twoBytes (op : BitVec 4) (a b : Byte) :
    frame op b (a.setWidth 16) &&& 0xFF00FF00#32 = frame op 0#8 0#16 := by
  have hop : Word.op 0xFF00FF00#32 = BitVec.allOnes 4 := by decide
  have hfb : Word.fb 0xFF00FF00#32 = 0#8 := by decide
  have hfa : Word.fa 0xFF00FF00#32 = 0xFF00#16 := by decide
  rw [frame_and, hop, hfb, hfa, setWidth_and_high, BitVec.and_zero, BitVec.and_allOnes]

/-- The rows of format FV. -/
theorem frame_and_oneByte (op : BitVec 4) (v : Byte) :
    frame op 0#8 (v.setWidth 16) &&& 0xFFFFFF00#32 = frame op 0#8 0#16 := by
  have hop : Word.op 0xFFFFFF00#32 = BitVec.allOnes 4 := by decide
  have hfa : Word.fa 0xFFFFFF00#32 = 0xFF00#16 := by decide
  rw [frame_and, hop, hfa, setWidth_and_high, BitVec.zero_and, BitVec.and_allOnes]

/-- The row of format FI. -/
theorem frame_and_index (op : BitVec 4) (i : BitVec 16) :
    frame op 0#8 i &&& 0xFFFF0000#32 = frame op 0#8 0#16 := by
  have hop : Word.op 0xFFFF0000#32 = BitVec.allOnes 4 := by decide
  have hfa : Word.fa 0xFFFF0000#32 = 0#16 := by decide
  rw [frame_and, hop, hfa, BitVec.zero_and, BitVec.and_zero, BitVec.and_allOnes]

/-- The row of format FAF. -/
theorem frame_and_flag (op : BitVec 4) (a : Byte) (f : Bool) :
    frame op ((BitVec.ofBool f).setWidth 8) (a.setWidth 16) &&& 0xFFFEFF00#32 = frame op 0#8 0#16 := by
  have hop : Word.op 0xFFFEFF00#32 = BitVec.allOnes 4 := by decide
  have hfb : (BitVec.ofBool f).setWidth 8 &&& Word.fb 0xFFFEFF00#32 = 0#8 := by cases f <;> decide
  have hfa : Word.fa 0xFFFEFF00#32 = 0xFF00#16 := by decide
  rw [frame_and, hop, hfb, hfa, setWidth_and_high, BitVec.and_allOnes]

end Sys2Proof

namespace Sys2Proof.Laws

/-- The word of a command selects the command's own row of the opcode map. -/
def RowMatch.Statement (i : Instr) : Prop := i.selectedBy (encode i) = true

theorem RowMatch.of_eq {i : Instr} (h : encode i &&& i.rowMask = i.rowMatch) : RowMatch.Statement i := by
  simpa [RowMatch.Statement, Instr.selectedBy] using h

theorem RowMatch.nop : RowMatch.Statement .nop := RowMatch.of_eq (by decide)
theorem RowMatch.gfAdd (a b : Byte) : RowMatch.Statement (.gfAdd a b) := RowMatch.of_eq (frame_and_twoBytes _ _ _)
theorem RowMatch.gfMul (a b : Byte) : RowMatch.Statement (.gfMul a b) := RowMatch.of_eq (frame_and_twoBytes _ _ _)
theorem RowMatch.gfDiv (a b : Byte) : RowMatch.Statement (.gfDiv a b) := RowMatch.of_eq (frame_and_twoBytes _ _ _)
theorem RowMatch.gfExp (i : BitVec 16) : RowMatch.Statement (.gfExp i) := RowMatch.of_eq (frame_and_index _ _)
theorem RowMatch.gfLog (v : Byte) : RowMatch.Statement (.gfLog v) := RowMatch.of_eq (frame_and_oneByte _ _)
theorem RowMatch.cwWr (addr data : Byte) : RowMatch.Statement (.cwWr addr data) :=
  RowMatch.of_eq (frame_and_twoBytes _ _ _)
theorem RowMatch.cwRd (addr : Byte) : RowMatch.Statement (.cwRd addr) := RowMatch.of_eq (frame_and_oneByte _ _)
theorem RowMatch.fmWr (addr : Byte) (f : Bool) : RowMatch.Statement (.fmWr addr f) :=
  RowMatch.of_eq (frame_and_flag _ _ _)
theorem RowMatch.fmRd (addr : Byte) : RowMatch.Statement (.fmRd addr) := RowMatch.of_eq (frame_and_oneByte _ _)
theorem RowMatch.setLen (n known : Byte) : RowMatch.Statement (.setLen n known) :=
  RowMatch.of_eq (frame_and_twoBytes _ _ _)
theorem RowMatch.eraseFill : RowMatch.Statement .eraseFill := RowMatch.of_eq (by decide)
theorem RowMatch.clrStatus : RowMatch.Statement .clrStatus := RowMatch.of_eq (by decide)

end Sys2Proof.Laws
end

