-- ==== Sys2Proof/Tests/Slice0.lean ====
section
/-! SUPPORT. Tests with expected results from spec/ (95_test_vectors.md unless said otherwise), and for every
obligation with hypotheses a state and operands that meet them all. -/

namespace Sys2Proof.Machine.Test

/-! ### Small states -/

def nextOf : Result → Option State
  | .next t => some t
  | _ => none

def faultOf : Result → Option Fault
  | .fault f => some f
  | _ => none

/-- What a command word does as the first one after reset. -/
def first (w : Word) : Result := command w State.reset

/-- RESULT and STATUS after a step. -/
def resultAndStatus (r : Result) : Option (Byte × Word) := (nextOf r).map fun t => (t.result, statusWord t)

def idle : State := State.reset

def solving : State := { State.reset with phase := .solving }

/-- The state the spec's X-22 shows: STATUS 0x4A with STICKY. -/
def fatalState : State := { State.reset with phase := .fatal, ecode := .unsolvable, sticky := true }

/-- The inputs of vector EF-1 (program P2 after access 9), the free entries unwritten. -/
def ef1 : State :=
  { State.reset with
    n := 5#8, known := 3#8
    fm := [(0, true), (1, false), (2, true), (3, false), (4, true)]
    cw := [(0, 0x10#8), (2, 0x20#8), (4, 0x30#8)] }

/-- EF-1 accepted. -/
def ef1Solving : State := { ef1 with phase := .solving }

/-- EF-1 with bytes at the free positions, as its last line has it. -/
def ef1Other : State :=
  { ef1Solving with cw := [(0, 0x10#8), (1, 0xAA#8), (2, 0x20#8), (3, 0x55#8), (4, 0x30#8)] }

/-- EF-1 completed. -/
def ef1Done : State :=
  { ef1 with cw := [(0, 0x10#8), (1, 0x38#8), (2, 0x20#8), (3, 0x38#8), (4, 0x30#8)] }

/-- EF-2: the other free set over EF-1's codeword. -/
def ef2 : State :=
  { ef1Done with
    phase := .solving
    fm := [(0, false), (1, true), (2, true), (3, true), (4, false)] }

/-- A solving state no run reaches (R160): N = 1, KNOWN = 0 and position 0 marked fixed, so the one row of the matrix
has no column. -/
def unreachableSolving : State :=
  { State.reset with phase := .solving, n := 1#8, fm := [(0, true)], cw := [(0, 0x01#8)] }

def scheduled (es : List Event) (s : State) : State := { s with schedule := es }

/-! ### The assembler's check (30_encoding.md R78): one ill-formed command for each operand -/

theorem test_wellFormed_refuses_a : assemble (.gfAdd 256 0) = none := by decide
theorem test_wellFormed_refuses_b : assemble (.gfMul 0 256) = none ∧ assemble (.gfDiv 256 1) = none := by decide
theorem test_wellFormed_refuses_i : assemble (.gfExp 65536) = none := by decide
theorem test_wellFormed_refuses_v : assemble (.gfLog 256) = none := by decide
theorem test_wellFormed_refuses_addr :
    assemble (.cwWr 256 0) = none ∧ assemble (.cwRd 256) = none ∧ assemble (.fmWr 256 0) = none ∧
      assemble (.fmRd 256) = none ∧ assemble (.fmFix 256) = none ∧ assemble (.fmFree 256) = none := by decide
theorem test_wellFormed_refuses_data : assemble (.cwWr 0 256) = none := by decide
theorem test_wellFormed_refuses_f : assemble (.fmWr 0 2) = none := by decide
theorem test_wellFormed_refuses_n : assemble (.setLen 256 1) = none := by decide
theorem test_wellFormed_refuses_known : assemble (.setLen 1 256) = none := by decide
theorem test_wellFormed_refuses_pseudo : assemble (.gfSub 256 0) = none ∧ assemble (.gfInv 256) = none := by decide

theorem test_wellFormed_accepts_top :
    assemble (.gfExp 65535) = some (.gfExp 65535#16) ∧ assemble (.setLen 255 255) = some (.setLen 255#8 255#8) := by
  decide

/-- R79: GF_INV b is GF_DIV 1, b. -/
theorem test_pseudo_gfInv : (assemble (.gfInv 0x53)).map encode = some 0x30530001#32 := by decide

/-! ### Decoding: a word of each row, bit by bit from its encoding -/

/-- Format FZ (R180): every bit 0. -/
theorem test_decode_nop : decode 0b0000_0000_00000000_00000000_00000000#32 = .ok .nop := rfl
/-- R108: 0001 0000 bbbbbbbb 00000000 aaaaaaaa, FA-1. -/
theorem test_decode_gfAdd : decode 0b0001_0000_11001010_00000000_01010011#32 = .ok (.gfAdd 0x53#8 0xCA#8) := rfl
/-- R109: 0010 0000 bbbbbbbb 00000000 aaaaaaaa, FM-8. -/
theorem test_decode_gfMul : decode 0b0010_0000_00000010_00000000_10001110#32 = .ok (.gfMul 0x8E#8 0x02#8) := rfl
/-- R110: 0011 0000 bbbbbbbb 00000000 aaaaaaaa, FD-3. -/
theorem test_decode_gfDiv : decode 0b0011_0000_11001010_00000000_10001111#32 = .ok (.gfDiv 0x8F#8 0xCA#8) := rfl
/-- R111: 0100 0000 00000000 iiiiiiiiiiiiiiii, FE-12. -/
theorem test_decode_gfExp : decode 0b0100_0000_00000000_1111110000000100#32 = .ok (.gfExp 64516#16) := rfl
/-- R112: 0101 0000 00000000 00000000 vvvvvvvv, FL-6. -/
theorem test_decode_gfLog : decode 0b0101_0000_00000000_00000000_10001110#32 = .ok (.gfLog 0x8E#8) := rfl
/-- R131: 0110 0000 dddddddd 00000000 aaaaaaaa, B-6. -/
theorem test_decode_cwWr : decode 0b0110_0000_10101011_00000000_11111110#32 = .ok (.cwWr 254#8 0xAB#8) := rfl
/-- R132: 0111 0000 00000000 00000000 aaaaaaaa, B-5. -/
theorem test_decode_cwRd : decode 0b0111_0000_00000000_00000000_00000010#32 = .ok (.cwRd 2#8) := rfl
/-- R133: 1000 0000 0000000f 00000000 aaaaaaaa, P2's access 4. -/
theorem test_decode_fmWr : decode 0b1000_0000_00000001_00000000_00000010#32 = .ok (.fmWr 2#8 true) := rfl
/-- R134: 1001 0000 00000000 00000000 aaaaaaaa, B-12. -/
theorem test_decode_fmRd : decode 0b1001_0000_00000000_00000000_11111111#32 = .ok (.fmRd 255#8) := rfl
/-- R130: 1010 0000 kkkkkkkk 00000000 nnnnnnnn, P4's access 1. -/
theorem test_decode_setLen : decode 0b1010_0000_00010000_00000000_00011010#32 = .ok (.setLen 26#8 16#8) := rfl
/-- R150: 0xB0000000 exactly. -/
theorem test_decode_eraseFill : decode 0b1011_0000_00000000_00000000_00000000#32 = .ok .eraseFill := rfl
/-- R181: 0xC0000000 exactly. -/
theorem test_decode_clrStatus : decode 0b1100_0000_00000000_00000000_00000000#32 = .ok .clrStatus := rfl

/-- X-11: the reserved opcodes. -/
theorem test_decode_reservedOpcode :
    decode 0xD0000000#32 = .error .reservedOpcode ∧ decode 0xE1234567#32 = .error .reservedOpcode ∧
      decode 0xFFFFFFFF#32 = .error .reservedOpcode := ⟨rfl, rfl, rfl⟩

/-- X-2 to X-7: a reserved bit of each format. -/
theorem test_decode_reservedBits :
    decode 0x00000001#32 = .error .reservedBits ∧ decode 0x1153008F#32 = .error .reservedBits ∧
      decode 0x41000000#32 = .error .reservedBits ∧ decode 0x50000100#32 = .error .reservedBits ∧
      decode 0x70010001#32 = .error .reservedBits ∧ decode 0x80020000#32 = .error .reservedBits :=
  ⟨rfl, rfl, rfl, rfl, rfl, rfl⟩

/-- R53: the byte at the lowest address holds bits 7:0; fewer than four bytes are no word. -/
theorem test_decodeBytes :
    decodeBytes [0x53#8, 0x00#8, 0xCA#8, 0x10#8, 0x77#8] = .ok (.gfAdd 0x53#8 0xCA#8, [0x77#8]) ∧
      decodeBytes [0x53#8, 0x00#8, 0xCA#8] = .error .truncated := ⟨rfl, rfl⟩

theorem test_decodeTableWord : decodeTableWord 32 0xA0030005 = some (.setLen 5#8 3#8) := by decide

/-! ### The commands -/

/-- FA-1 and FA-3. -/
theorem test_gfAdd :
    resultAndStatus (first 0x10CA0053#32) = some (0x99#8, 0x00#32) ∧
      resultAndStatus (first 0x10FF00FF#32) = some (0x00#8, 0x00#32) := by decide
/-- FM-1, FM-6 (the reduction by PRIM_POLY) and FM-7. -/
theorem test_gfMul :
    resultAndStatus (first 0x20CA0053#32) = some (0x8F#8, 0x00#32) ∧
      resultAndStatus (first 0x20800002#32) = some (0x1D#8, 0x00#32) ∧
      resultAndStatus (first 0x20800080#32) = some (0x13#8, 0x00#32) := by decide +kernel
/-- FM-2 and FM-3: the zero test. -/
theorem test_gfMul_zero :
    resultAndStatus (first 0x20370000#32) = some (0x00#8, 0x00#32) ∧
      resultAndStatus (first 0x20000037#32) = some (0x00#8, 0x00#32) := by decide
/-- FD-1, FD-3 and FD-5. -/
theorem test_gfDiv :
    resultAndStatus (first 0x30530001#32) = some (0x8C#8, 0x00#32) ∧
      resultAndStatus (first 0x30CA008F#32) = some (0x53#8, 0x00#32) ∧
      resultAndStatus (first 0x308E0001#32) = some (0x02#8, 0x00#32) := by decide +kernel
/-- FD-8, and FD-9: the divisor is tested before the dividend. RESULT is unchanged. -/
theorem test_gfDiv_byZero :
    resultAndStatus (exec (.gfDiv 0x01#8 0#8) { idle with result := 0x77#8 }) = some (0x77#8, 0x28#32) ∧
      resultAndStatus (first 0x30000000#32) = some (0x00#8, 0x28#32) := by decide
/-- FE-7, FE-9 and FE-12: the index is reduced mod 255. -/
theorem test_gfExp :
    resultAndStatus (first 0x400000FF#32) = some (0x01#8, 0x00#32) ∧
      resultAndStatus (first 0x400001FD#32) = some (0x8E#8, 0x00#32) ∧
      resultAndStatus (first 0x4000FC04#32) = some (0x02#8, 0x00#32) := by decide +kernel
/-- FL-1, FL-6 and FL-7. -/
theorem test_gfLog :
    resultAndStatus (first 0x50000001#32) = some (0x00#8, 0x00#32) ∧
      resultAndStatus (first 0x5000008E#32) = some (0xFE#8, 0x00#32) ∧
      resultAndStatus (first 0x500000FF#32) = some (0xAF#8, 0x00#32) := by decide +kernel
/-- FL-8, with RESULT unchanged. -/
theorem test_gfLog_zero :
    resultAndStatus (exec (.gfLog 0#8) { idle with result := 0x77#8 }) = some (0x77#8, 0x38#32) := by decide
/-- B-6: the last entry is legal even with N = 0. B-7: the next one is not. -/
theorem test_cwWr :
    (nextOf (first 0x60AB00FE#32)).map (fun t => t.cw.read 254) = some (some 0xAB#8) ∧
      resultAndStatus (first 0x600100FF#32) = some (0x00#8, 0x18#32) := by decide
/-- B-5. -/
theorem test_cwRd :
    resultAndStatus (exec (.cwRd 2#8) { idle with cw := [(2, 0x20#8)] }) = some (0x20#8, 0x00#32) := by decide
/-- B-8 and B-13. -/
theorem test_cwRd_stops :
    resultAndStatus (first 0x700000FF#32) = some (0x00#8, 0x18#32) ∧
      faultOf (first 0x70000000#32) = some .unwrittenRead := by decide
/-- B-9 and B-11. -/
theorem test_fmWr :
    (nextOf (first 0x80000001#32)).map (fun t => t.fm.read 1) = some (some false) ∧
      resultAndStatus (first 0x800100FF#32) = some (0x00#8, 0x18#32) := by decide
/-- B-10 and B-12. -/
theorem test_fmRd :
    resultAndStatus (exec (.fmRd 0#8) { idle with fm := [(0, true)] }) = some (0x01#8, 0x00#32) ∧
      resultAndStatus (first 0x900000FF#32) = some (0x00#8, 0x18#32) := by decide
/-- B-1 and B-3. -/
theorem test_setLen :
    (nextOf (first 0xA0030005#32)).map geomWord = some 0x00000305#32 ∧
      (nextOf (first 0xA0FF00FF#32)).map geomWord = some 0x0000FFFF#32 := by decide
/-- EF-1's acceptance; X-12. -/
theorem test_eraseFill :
    (nextOf (exec .eraseFill ef1)).map statusWord = some 0x01#32 ∧
      (nextOf (first 0xB0000000#32)).map statusWord = some 0x18#32 := by decide
/-- X-13 to X-15, X-16 (the mask count) and X-17 (the mask read of an unwritten entry). -/
theorem test_eraseFill_checks :
    (nextOf (exec .eraseFill { idle with n := 3#8, known := 0#8 })).map statusWord = some 0x18#32 ∧
      (nextOf (exec .eraseFill { idle with n := 3#8, known := 3#8 })).map statusWord = some 0x18#32 ∧
      (nextOf (exec .eraseFill { idle with n := 3#8, known := 4#8 })).map statusWord = some 0x18#32 ∧
      (nextOf (exec .eraseFill
        { idle with n := 4#8, known := 2#8, fm := [(0, true), (1, true), (2, true), (3, false)] })).map
          statusWord = some 0x18#32 ∧
      faultOf (exec .eraseFill { idle with n := 4#8, known := 2#8, fm := [(0, true), (1, true), (2, true)] }) =
        some .unwrittenRead := by decide
/-- X-18. -/
theorem test_nop :
    (nextOf (exec .nop { idle with ecode := .fieldDomainError, sticky := true })).map statusWord = some 0x08#32 := by
  decide
/-- X-19, X-21. -/
theorem test_clrStatus :
    (nextOf (exec .clrStatus { idle with ecode := .invalidArgument, sticky := true, overrun := true })).map statusWord =
        some 0x00#32 ∧
      (nextOf (exec .clrStatus solving)).map statusWord = some 0x05#32 := by decide

/-! ### The solver -/

/-- The initial matrix of EF-1. -/
theorem test_ef1_system :
    system 5 2 [1, 3] [(0, 0x10#8), (2, 0x20#8), (4, 0x30#8)] =
      [⟨[0x01#8, 0x01#8], 0x00#8⟩, ⟨[0x08#8, 0x02#8], 0xAD#8⟩] := by decide +kernel

/-- EF-1's pivot at step 0 is row 1 (column 01, 08); EF-10's tie between rows 2 and 5 goes to row 2. -/
theorem test_pivot :
    pivotIndex [0x01#8, 0x08#8] = 1 ∧
      pivotIndex [0x01#8, 0xD6#8, 0xD7#8, 0x01#8, 0xD6#8, 0xD7#8] = 2 := by decide

/-- EF-1: the result, STATUS 0 afterwards, whatever the free entries held. -/
theorem test_ef1 : nextOf (solverTurn ef1Solving) = some ef1Done ∧ nextOf (solverTurn ef1Other) = some ef1Done := by
  decide +kernel

/-- EF-2: another free set over the same codeword keeps it. -/
theorem test_ef2 : (nextOf (solverTurn ef2)).map State.cw = some ef1Done.cw := by decide +kernel

/-- EF-3, three free positions. -/
theorem test_ef3 : solve 4 3 [0, 1, 3] [(2, 0x01#8)] = some [0x5D#8, 0x8E#8, 0xD2#8] := by decide +kernel

/-- EF-4, the systematic case: the last four bytes. -/
theorem test_ef4 :
    solve 7 4 [3, 4, 5, 6] [(0, 0x01#8), (1, 0x02#8), (2, 0x03#8)] = some [0x8B#8, 0xF3#8, 0x8E#8, 0xF6#8] := by
  decide +kernel

/-- EF-9, which no length of the hardware's can reach: two equal columns give Unsolvable. -/
theorem test_ef9_unsolvable : solve 256 2 [0, 255] [(1, 0x01#8)] = none := by decide +kernel

/-- R156: the Unsolvable end leaves CW alone; STATUS is X-22's. -/
theorem test_unsolvable_end :
    (nextOf (solverTurn unreachableSolving)).map (fun t => (statusWord t, t.cw.read 0)) =
      some (0x4A#32, some 0x01#8) := by decide +kernel

/-! ### Reset, registers and steps -/

/-- 10_state.md R37; RR-2, RR-6. -/
theorem test_reset : statusWord State.reset = 0#32 ∧ geomWord State.reset = 0#32 ∧ configWord = 0xFF02011D#32 := by
  decide

/-- P5's access 6: reset while Solving. -/
theorem test_reset_event :
    (nextOf (step (scheduled [.reset] ef1Solving))).map
        (fun t => (statusWord t, geomWord t, t.cw.length, t.fm.length)) = some (0#32, 0#32, 0, 0) := by decide

/-- RR-3, read in phase Solving. -/
theorem test_read_geom :
    (nextOf (step (scheduled [.read 4 (.window 0x10#5)] ef1Solving))).map State.hostReads =
      some [0x00000305#32] := by decide

/-- RR-1 and RR-4: CMD and the last reserved offset. -/
theorem test_read_zero :
    (nextOf (step (scheduled [.read 4 (.window 0x00#5)] fatalState))).map State.hostReads = some [0#32] ∧
      (nextOf (step (scheduled [.read 4 (.window 0x1C#5)] idle))).map State.hostReads = some [0#32] := by decide

/-- RR-7. -/
theorem test_write_status_ignored :
    nextOf (step (scheduled [.write 4 (.window 0x08#5) 0x12345678#32] ef1)) = some ef1 := by decide

/-- RR-8: a one-byte access, a misaligned one, and one outside the window. -/
theorem test_refused :
    faultOf (step (scheduled [.read 1 (.window 0x04#5)] idle)) = some .refusedAccess ∧
      faultOf (step (scheduled [.write 4 (.window 0x02#5) 0#32] idle)) = some .refusedAccess ∧
      faultOf (step (scheduled [.read 4 (.outside 0)] idle)) = some .refusedAccess := by decide

/-- X-20: a command while Solving. X-22: a command while Fatal. -/
theorem test_dropped_and_ignored :
    (nextOf (command 0x20CA0053#32 ef1Solving)).map statusWord = some 0x05#32 ∧
      nextOf (command 0x20CA0053#32 fatalState) = some fatalState ∧ statusWord fatalState = 0x4A#32 := by decide

/-- X-3: RSV = 1. X-11: a reserved opcode. -/
theorem test_illegal :
    resultAndStatus (first 0x1153008F#32) = some (0x00#8, 0x58#32) ∧
      resultAndStatus (first 0xE1234567#32) = some (0x00#8, 0x58#32) := by decide

/-- The step after `withFetchWord` runs the word (FE-2). -/
theorem test_withFetchWord :
    resultAndStatus (step (State.reset.withFetchWord 32 0x40000001)) = some (0x02#8, 0x00#32) := by decide

/-- The solver moves when nothing is scheduled, and the machine stays as it is when nothing is owed (R58, R238). -/
theorem test_unprompted :
    nextOf (step ef1Solving) = some ef1Done ∧ nextOf (step ef1Done) = some ef1Done := by decide +kernel

/-! ### Witnesses: a state and operands that meet the hypotheses of each obligation, clause by clause -/

theorem next_of_nextOf {r : Result} {t : State} (h : nextOf r = some t) : r = .next t := by
  cases r <;> cases h
  rfl

/-- EF-1's solver step as an equation. -/
theorem ef1_solved : solverTurn ef1Solving = .next ef1Done := next_of_nextOf test_ef1.1

theorem ef1Other_solved : solverTurn ef1Other = .next ef1Done := next_of_nextOf test_ef1.2

theorem ef2_solved : solverTurn ef2 = .next { ef2 with phase := .idle } :=
  next_of_nextOf (by decide +kernel)

/-- The Unsolvable end of `unreachableSolving`. -/
def unreachableFatal : State := { unreachableSolving with phase := .fatal, ecode := .unsolvable, sticky := true }

theorem unreachable_unsolvable : solverTurn unreachableSolving = .next unreachableFatal := rfl

/-- The codeword of EF-1, position by position. -/
def ef1Word (j : Nat) : Byte := [0x10#8, 0x38#8, 0x20#8, 0x38#8, 0x30#8].getD j 0#8

/-- TablesAreGenerated: the last index of each clause. -/
theorem test_witness_TablesAreGenerated :
    expt 255 = generatedExpt 255 ∧ ∃ h : generatedExpt 254 ≠ 0#8, (logt (generatedExpt 254) h).toNat = 254 :=
  ⟨by decide +kernel, by decide +kernel, by decide +kernel⟩

/-- ExpAndLogAreInverse: v = 0xFF. -/
theorem test_witness_ExpAndLogAreInverse : 0xFF#8 ≠ 0#8 := by decide

/-- DivIsTheUniqueQuotient: b = 0x53, and r = 0x8C with r · b = 1. -/
theorem test_witness_DivIsTheUniqueQuotient : 0x53#8 ≠ 0#8 ∧ gfMul 0x8C#8 0x53#8 = 0x01#8 := by decide +kernel

/-- GfAddResult, GfMulResult, GfExpResult and SetLenResult ask for phase Idle only. -/
theorem test_witness_idle : idle.phase = .idle := rfl

/-- GfDivResult: both clauses. -/
theorem test_witness_GfDivResult :
    idle.phase = .idle ∧ 0x01#8 ≠ 0#8 ∧ exec (.gfDiv 5#8 0#8) idle = .next (raise .divisionByZero idle) :=
  ⟨rfl, by decide, rfl⟩

/-- GfLogResult: both clauses. -/
theorem test_witness_GfLogResult :
    idle.phase = .idle ∧ 0x8E#8 ≠ 0#8 ∧ exec (.gfLog 0#8) idle = .next (raise .fieldDomainError idle) :=
  ⟨rfl, by decide, rfl⟩

/-- CwWrResult and FmWrResult: 255 is out of range and 254 is in range. -/
theorem test_witness_CwWrResult_FmWrResult :
    idle.phase = .idle ∧ Config.nMax ≤ (255#8).toNat ∧ (254#8).toNat < Config.nMax := by decide

/-- FmWrResult, NopResult and ClrStatusResult: words whose reserved bits make them illegal (X-7, X-2). -/
theorem test_witness_illegal_words :
    (0x80020000#32).toNat / 2 ^ 28 = 0x8 ∧ (0x80020000#32).toNat / 2 ^ 17 % 2 ^ 7 ≠ 0 ∧
      (0x80800000#32).toNat / 2 ^ 17 % 2 ^ 7 ≠ 0 ∧ (0x00000001#32).toNat / 2 ^ 28 = 0x0 ∧ 0x00000001#32 ≠ 0x00000000#32 ∧
      (0xC0000001#32).toNat / 2 ^ 28 = 0xC ∧ 0xC0000001#32 ≠ 0xC0000000#32 := by decide

/-- CwRdResult: out of range, unwritten, and written. -/
theorem test_witness_CwRdResult :
    ef1.phase = .idle ∧ Config.nMax ≤ (255#8).toNat ∧ (254#8).toNat < Config.nMax ∧ ef1.cw.written 254 = false ∧
      (4#8).toNat < Config.nMax ∧ ef1.cw.read (4#8).toNat = some 0x30#8 := by decide

/-- FmRdResult: FM_WR of either flag, to the last entry. -/
theorem test_witness_FmRdResult_readsBack :
    idle.phase = .idle ∧ (254#8).toNat < Config.nMax ∧
      exec (.fmWr 254#8 true) idle = .next { idle with fm := [(254, true)] } ∧
      exec (.fmWr 254#8 false) idle = .next { idle with fm := [(254, false)] } := ⟨rfl, by decide, rfl, rfl⟩

/-- FmRdResult: out of range, unwritten, and written with either flag. -/
theorem test_witness_FmRdResult :
    ef1.phase = .idle ∧ Config.nMax ≤ (255#8).toNat ∧ (254#8).toNat < Config.nMax ∧ ef1.fm.written 254 = false ∧
      ef1.fm.read (4#8).toNat = some true ∧ ef1.fm.read (3#8).toNat = some false := by decide

/-- CwReadsBackWhatWasWritten: write entry 254, then a command between. -/
theorem test_witness_CwReadsBackWhatWasWritten :
    idle.phase = .idle ∧ (254#8).toNat < Config.nMax ∧
      exec (.cwWr 254#8 0xAB#8) idle = .next { idle with cw := [(254, 0xAB#8)] } ∧
      (∀ d, Instr.cwWr 253#8 1#8 ≠ .cwWr 254#8 d) ∧
      exec (.cwWr 253#8 1#8) { idle with cw := [(254, 0xAB#8)] } =
        .next { idle with cw := [(253, 1#8), (254, 0xAB#8)] } :=
  ⟨rfl, by decide, rfl, by simp, rfl⟩

/-- FieldOpsFrame: a command that completes, one that raises, one dropped, one ignored. -/
theorem test_witness_FieldOpsFrame :
    exec (.gfAdd 1#8 2#8) ef1 = .next { ef1 with result := 3#8 } ∧
      exec (.gfDiv 1#8 0#8) ef1 = .next { ef1 with ecode := .divisionByZero, sticky := true } ∧
      exec (.gfMul 1#8 2#8) ef1Solving = .next { ef1Solving with overrun := true } ∧
      exec (.gfLog 1#8) fatalState = .next fatalState := ⟨rfl, rfl, rfl, rfl⟩

/-- FieldOpsIgnoreBuffers: `idle` and `ef1` differ in CW, FM, N and KNOWN only. -/
theorem test_witness_FieldOpsIgnoreBuffers :
    ef1.phase = idle.phase ∧ ef1.result = idle.result ∧ statusWord ef1 = statusWord idle ∧
      exec (.gfAdd 1#8 2#8) idle = .next { idle with result := 3#8 } ∧
      exec (.gfAdd 1#8 2#8) ef1 = .next { ef1 with result := 3#8 } := ⟨rfl, rfl, rfl, rfl, rfl⟩

/-- BufferWritesFrame: in range, out of range, dropped; both commands. -/
theorem test_witness_BufferWritesFrame :
    (∃ data, exec (.cwWr 254#8 data) idle = .next { idle with cw := [(254, data)] }) ∧
      (∃ data, exec (.cwWr 255#8 data) idle = .next (raise .invalidArgument idle)) ∧
      (∃ data, exec (.cwWr 0#8 data) solving = .next (drop solving)) ∧
      (∃ f, exec (.fmWr 254#8 f) idle = .next { idle with fm := [(254, f)] }) ∧
      (∃ f, exec (.fmWr 255#8 f) idle = .next (raise .invalidArgument idle)) ∧
      ∃ f, exec (.fmWr 0#8 f) fatalState = .next fatalState :=
  ⟨⟨1#8, rfl⟩, ⟨1#8, rfl⟩, ⟨1#8, rfl⟩, ⟨true, rfl⟩, ⟨true, rfl⟩, ⟨true, rfl⟩⟩

/-- OtherCommandsFrame: each of the six commands answers a next state. -/
theorem test_witness_OtherCommandsFrame :
    exec (.cwRd 4#8) ef1 = .next { ef1 with result := 0x30#8 } ∧
      exec (.fmRd 4#8) ef1 = .next { ef1 with result := 0x01#8 } ∧
      exec (.setLen 7#8 3#8) ef1 = .next { ef1 with n := 7#8 } ∧ exec .eraseFill ef1 = .next ef1Solving ∧
      exec .nop ef1 = .next ef1 ∧ exec .clrStatus ef1 = .next ef1 :=
  ⟨rfl, rfl, rfl, rfl, rfl, rfl⟩

/-- EraseFillIsAccepted. -/
theorem test_witness_EraseFillIsAccepted : ef1.phase = .idle ∧ inputsReady ef1 := ⟨rfl, by decide⟩

/-- EraseFillChecksInOrder: each check in turn, at its boundary: N = 0, KNOWN = 0, KNOWN = N. -/
theorem test_witness_EraseFillChecksInOrder_geometry :
    idle.phase = .idle ∧ idle.n.toNat = 0 ∧
      (let s := { idle with n := 1#8 }
       0 < s.n.toNat ∧ s.n.toNat ≤ Config.nMax ∧ s.known.toNat = 0) ∧
      (let s := { idle with n := 255#8, known := 255#8 }
       0 < s.n.toNat ∧ s.n.toNat ≤ Config.nMax ∧ 0 < s.known.toNat ∧ s.n.toNat ≤ s.known.toNat) := by decide

/-- EraseFillChecksInOrder: the mask unwritten, its count wrong, a fixed byte unwritten, and all in order. -/
theorem test_witness_EraseFillChecksInOrder_buffers :
    (let s := { idle with n := 255#8, known := 254#8 }
     0 < s.known.toNat ∧ s.known.toNat < s.n.toNat ∧ ¬ maskWritten s) ∧
      (let s := { ef1 with known := 2#8 }
       0 < s.known.toNat ∧ s.known.toNat < s.n.toNat ∧ maskWritten s ∧ fixedCount s ≠ s.known.toNat) ∧
      (let s := { ef1 with cw := [(0, 0x10#8), (2, 0x20#8)] }
       maskWritten s ∧ fixedCount s = s.known.toNat ∧ ¬ fixedWritten s) ∧
      maskWritten ef1 ∧ fixedCount ef1 = ef1.known.toNat ∧ fixedWritten ef1 ∧ ef1.overrun = false ∧
        ef1.sticky = false := by decide +kernel

/-- EraseFillChecksInOrder: STATUS after acceptance and after the solver's step, STICKY and OVERRUN clear. -/
theorem test_witness_EraseFillChecksInOrder_status :
    ef1.phase = .idle ∧ ef1.overrun = false ∧ ef1.sticky = false ∧ exec .eraseFill ef1 = .next ef1Solving ∧
      ef1Solving.phase = .solving ∧ ef1Solving.overrun = false ∧ ef1Solving.sticky = false ∧
      solverTurn ef1Solving = .next ef1Done ∧ ef1Done.phase = .idle :=
  ⟨rfl, rfl, rfl, rfl, rfl, rfl, rfl, ef1_solved, rfl⟩

/-- SolverStepEnds: the inputs in order, and a free position. -/
theorem test_witness_SolverStepEnds_free :
    inputsReady ef1Solving ∧ ef1Done.phase = .idle ∧ 3 < ef1Solving.n.toNat ∧ isFixed ef1Solving 3 = false := by decide

/-- SolverStepEnds: both ends. -/
theorem test_witness_SolverStepEnds :
    ef1Solving.phase = .solving ∧ solverTurn ef1Solving = .next ef1Done ∧ unreachableSolving.phase = .solving ∧
      solverTurn unreachableSolving = .next unreachableFatal :=
  ⟨rfl, ef1_solved, rfl, unreachable_unsolvable⟩

/-- UnsolvableIsUnreachable. -/
theorem test_witness_UnsolvableIsUnreachable : ef1Solving.phase = .solving ∧ inputsReady ef1Solving := ⟨rfl, by decide⟩

/-- SolvedCodewordSatisfiesParity. -/
theorem test_witness_SolvedCodewordSatisfiesParity :
    ef1Solving.phase = .solving ∧ inputsReady ef1Solving ∧ solverTurn ef1Solving = .next ef1Done ∧
      ef1Done.phase = .idle := ⟨rfl, by decide, ef1_solved, rfl⟩

/-- SolvedCodewordIsUnique: EF-1's codeword has the fixed bytes and satisfies both parity checks. -/
theorem test_witness_SolvedCodewordIsUnique :
    (∀ j < ef1Solving.n.toNat, isFixed ef1Solving j = true → ef1Solving.cw.read j = some (ef1Word j)) ∧
      parityHolds ef1Solving.n.toNat (ef1Solving.n.toNat - ef1Solving.known.toNat) ef1Word :=
  ⟨by decide, by unfold parityHolds; decide +kernel⟩

/-- FreeBytesAreNotInputs: EF-1 without and with bytes at its free positions. -/
theorem test_witness_FreeBytesAreNotInputs :
    ef1Other.phase = .solving ∧ ef1Other.n = ef1Solving.n ∧ ef1Other.known = ef1Solving.known ∧
      (∀ j < ef1Solving.n.toNat, ef1Other.fm.read j = ef1Solving.fm.read j) ∧
      (∀ j < ef1Solving.n.toNat, isFixed ef1Solving j = true → ef1Other.cw.read j = ef1Solving.cw.read j) ∧
      inputsReady ef1Solving ∧ solverTurn ef1Solving = .next ef1Done ∧ solverTurn ef1Other = .next ef1Done :=
  ⟨rfl, rfl, rfl, by decide, by decide, by decide, ef1_solved, ef1Other_solved⟩

/-- ResolvingIsStable: EF-1 and EF-2. -/
theorem test_witness_ResolvingIsStable :
    inputsReady ef1Solving ∧ solverTurn ef1Solving = .next ef1Done ∧ ef1Done.phase = .idle ∧ ef2.phase = .solving ∧
      ef2.n = ef1Done.n ∧ ef2.known = ef1Done.known ∧ ef2.cw = ef1Done.cw ∧ inputsReady ef2 ∧
      solverTurn ef2 = .next { ef2 with phase := .idle } :=
  ⟨by decide, ef1_solved, rfl, rfl, rfl, rfl, rfl, by decide, ef2_solved⟩

/-- InputsAreFrozenWhileSolving: a read and a dropped write. -/
theorem test_witness_InputsAreFrozenWhileSolving :
    step (scheduled [.read 4 (.window 0x08#5)] solving) = .next { solving with hostReads := [1#32] } ∧
      step (scheduled [cmdWrite 0#32] solving) = .next { solving with overrun := true } ∧
      Event.read 4 (.window 0x08#5) ≠ .solver ∧ Event.read 4 (.window 0x08#5) ≠ .reset ∧ cmdWrite 0#32 ≠ .solver ∧
      cmdWrite 0#32 ≠ .reset := ⟨rfl, rfl, by decide, by decide, by decide, by decide⟩

/-- NopResult and ClrStatusResult: the three phases, and STATUS with STICKY. -/
theorem test_witness_NopResult_ClrStatusResult :
    idle.phase = .idle ∧ solving.phase = .solving ∧ fatalState.phase = .fatal ∧
      (let s := { idle with ecode := .fieldDomainError, sticky := true }
       s.phase = .idle ∧ s.overrun = false ∧ s.sticky = true) := by decide

/-- CommandsAreDroppedWhileSolving: a dropped word; OVERRUN cleared by CLR_STATUS, and by reset. -/
theorem test_witness_CommandsAreDroppedWhileSolving :
    solving.phase = .solving ∧
      runEvent (cmdWrite 0xC0000000#32) { idle with overrun := true } = .next idle ∧
      runEvent .reset { idle with overrun := true } = .next idle ∧ idle.overrun = false := ⟨rfl, rfl, rfl, rfl⟩

/-- CommandsAreIgnoredWhileFatal: an ignored word, and an event that enters phase Fatal. -/
theorem test_witness_CommandsAreIgnoredWhileFatal :
    fatalState.phase = .fatal ∧ fatalState.ecode = .unsolvable ∧
      runEvent (cmdWrite 0#32) fatalState = .next fatalState ∧
      (unreachableSolving.phase = .fatal → unreachableSolving.ecode = .unsolvable) ∧
      runEvent .solver unreachableSolving = .next unreachableFatal ∧ unreachableFatal.phase = .fatal :=
  ⟨rfl, rfl, rfl, by decide, unreachable_unsolvable, rfl⟩

/-- IllegalWordsRaise: the lowest and the highest reserved opcode, and a reserved bit of GF_ADD. -/
theorem test_witness_IllegalWordsRaise :
    (∀ i : Instr, i.selectedBy 0xD0000000#32 = false) ∧ 0xD ≤ (0xD0000000#32).toNat / 2 ^ 28 ∧
      0xD ≤ (0xFFFFFFFF#32).toNat / 2 ^ 28 ∧
      (0x1153008F#32).toNat / 2 ^ 28 = (Instr.gfAdd 0#8 0#8).rowMatch.toNat / 2 ^ 28 ∧
      0x1153008F#32 &&& (Instr.gfAdd 0#8 0#8).rowMask ≠ (Instr.gfAdd 0#8 0#8).rowMatch :=
  ⟨fun i => by cases i <;> simp only [Instr.selectedBy, Instr.rowMask, Instr.rowMatch] <;> decide, by decide, by decide,
    by decide, by decide⟩

/-- StepRunsDecodedInstruction. -/
theorem test_witness_StepRunsDecodedInstruction :
    (scheduled [cmdWrite 0x10CA0053#32] idle).schedule = [cmdWrite 0x10CA0053#32] ∧
      decode 0x10CA0053#32 = .ok (.gfAdd 0x53#8 0xCA#8) := ⟨rfl, rfl⟩

/-- DecodeSelectsTheOneRow: one word, two commands of its row. -/
theorem test_witness_DecodeSelectsTheOneRow :
    (Instr.gfAdd 0x53#8 0xCA#8).selectedBy 0x10CA0053#32 = true ∧
      (Instr.gfAdd 0#8 0#8).selectedBy 0x10CA0053#32 = true ∧ decode 0x10CA0053#32 = .ok (.gfAdd 0x53#8 0xCA#8) :=
  ⟨by decide, by decide, rfl⟩

/-- RaisedOutcomesArePrecise: a command, an illegal word, and the solver. -/
theorem test_witness_RaisedOutcomesArePrecise :
    exec (.gfDiv 1#8 0#8) ef1 = .next (raise .divisionByZero ef1) ∧
      command 0xD0000000#32 ef1 = .next (raise .illegalCommand ef1) ∧
      solverTurn unreachableSolving = .next unreachableFatal ∧ unreachableFatal.ecode ≠ .ok :=
  ⟨rfl, rfl, unreachable_unsolvable, by decide⟩

/-- InvalidArgumentExactlyWhen: on the list, and not on it, at the boundary index. -/
theorem test_witness_InvalidArgumentExactlyWhen :
    exec (.cwRd 255#8) idle = .next (raise .invalidArgument idle) ∧
      exec .eraseFill idle = .next (raise .invalidArgument idle) ∧
      exec (.fmWr 254#8 true) idle = .next { idle with fm := [(254, true)] } := ⟨rfl, rfl, rfl⟩

/-- FieldErrorsExactlyWhen: each error, a command that completes, and the solver's two ends. -/
theorem test_witness_FieldErrorsExactlyWhen :
    exec (.gfDiv 0#8 0#8) idle = .next (raise .divisionByZero idle) ∧
      exec (.gfLog 0#8) idle = .next (raise .fieldDomainError idle) ∧ exec .nop idle = .next idle ∧
      solverTurn ef1Solving = .next ef1Done ∧ solverTurn unreachableSolving = .next unreachableFatal :=
  ⟨rfl, rfl, rfl, ef1_solved, unreachable_unsolvable⟩

/-- StepsStopOnlyInModelFaults: UnwrittenRead at a command, at the solver's scheduled turn, and unprompted. -/
theorem test_witness_StepsStopOnlyInModelFaults :
    step (scheduled [cmdWrite 0x70000000#32] idle) = .fault .unwrittenRead ∧
      step (scheduled [.solver] { solving with n := 1#8 }) = .fault .unwrittenRead ∧
      step { solving with n := 1#8 } = .fault .unwrittenRead := ⟨rfl, rfl, rfl⟩

/-- ResetEventResets: reset from Solving, and out of Fatal. -/
theorem test_witness_ResetEventResets :
    runEvent .reset ef1Solving = .next idle ∧ runEvent .reset fatalState = .next idle ∧ fatalState.phase = .fatal ∧
      idle.phase ≠ .fatal := ⟨rfl, rfl, rfl, by decide⟩

/-- ReadsReturnRegisters: each register, the first and the last offset among them. -/
theorem test_witness_ReadsReturnRegisters :
    ∀ o ∈ [0x00#5, 0x04#5, 0x08#5, 0x0C#5, 0x10#5, 0x14#5, 0x18#5, 0x1C#5], o.toNat % 4 = 0 := by decide

/-- A host write to CMD of an illegal word raises IllegalCommand in Idle, is dropped in Solving, and ignored in Fatal
(R206 to R208). -/
theorem test_write_illegal :
    hostWrite 4 (.window 0x00#5) 0xD0000000#32 idle = .next (raise .illegalCommand idle) ∧
      hostWrite 4 (.window 0x00#5) 0xD0000000#32 solving = .next (drop solving) ∧
      hostWrite 4 (.window 0x00#5) 0xD0000000#32 fatalState = .next fatalState := ⟨rfl, rfl, rfl⟩

/-- The codes of R201, in bits 7:4 of STATUS (R28). -/
theorem test_codes :
    statusWord { idle with ecode := .invalidArgument } = 0x10#32 ∧
      statusWord { idle with ecode := .divisionByZero } = 0x20#32 ∧
      statusWord { idle with ecode := .fieldDomainError } = 0x30#32 ∧
      statusWord { idle with ecode := .unsolvable } = 0x40#32 ∧
      statusWord { idle with ecode := .illegalCommand } = 0x50#32 := by decide

/-- WritesElsewhereAreIgnored: CMD with a word that decodes, and the last offset. -/
theorem test_witness_WritesElsewhereAreIgnored :
    (0x00#5).toNat % 4 = 0 ∧ decode 0#32 = .ok .nop ∧ (0x1C#5).toNat % 4 = 0 ∧ 0x1C#5 ≠ 0x00#5 :=
  ⟨rfl, rfl, rfl, by decide⟩

/-- OtherAccessesAreRefused: another size, another alignment, and the first address past the window. -/
theorem test_witness_OtherAccessesAreRefused :
    (1 : Nat) ≠ 4 ∧ (Config.base + 2) % 4 ≠ 0 ∧ Config.base + 0x20 ≤ Config.base + 0x20 ∧ 0x1F < 0x20 := by
  refine ⟨by decide, ?_, Nat.le_refl _, by decide⟩
  unfold Config.base Config.windowSize
  omega

/-- OnlyTheSolverMovesUnprompted. -/
theorem test_witness_OnlyTheSolverMovesUnprompted :
    ef1Solving.schedule = [] ∧ programEnded ef1Done ∧ programEnded fatalState ∧ step ef1Solving = .next ef1Done :=
  ⟨rfl, by decide, by decide, ef1_solved⟩

/-- PhaseTransitions: each of the four. -/
theorem test_witness_PhaseTransitions :
    runEvent (cmdWrite 0xB0000000#32) ef1 = .next ef1Solving ∧ runEvent .solver ef1Solving = .next ef1Done ∧
      runEvent .solver unreachableSolving = .next unreachableFatal ∧ runEvent .reset ef1Solving = .next idle :=
  ⟨rfl, ef1_solved, unreachable_unsolvable, rfl⟩

/-- GeometryAndMaskWriters: SET_LEN, FM_WR and reset. -/
theorem test_witness_GeometryAndMaskWriters :
    step (scheduled [cmdWrite 0xA0030005#32] idle) = .next { idle with n := 5#8, known := 3#8 } ∧
      step (scheduled [cmdWrite 0x80010000#32] idle) = .next { idle with fm := [(0, true)] } ∧
      step (scheduled [.reset] ef1) = .next idle ∧ idle.fm.read 0 ≠ ef1.fm.read 0 := ⟨rfl, rfl, rfl, by decide⟩

/-- ResultAndCodewordWriters: a field operation, CW_WR and the solver. -/
theorem test_witness_ResultAndCodewordWriters :
    step (scheduled [cmdWrite 0x10CA0053#32] idle) = .next { idle with result := 0x99#8 } ∧
      step (scheduled [cmdWrite 0x60AB00FE#32] idle) = .next { idle with cw := [(254, 0xAB#8)] } ∧
      step ef1Solving = .next ef1Done ∧ ef1Done.cw.read 1 ≠ ef1Solving.cw.read 1 :=
  ⟨rfl, rfl, ef1_solved, by decide⟩

/-- StickyAndOverrunWriters: STICKY falls, STICKY rises, OVERRUN rises. -/
theorem test_witness_StickyAndOverrunWriters :
    step (scheduled [cmdWrite 0xC0000000#32] { idle with sticky := true, overrun := true }) = .next idle ∧
      step (scheduled [cmdWrite 0xD0000000#32] idle) = .next (raise .illegalCommand idle) ∧
      step (scheduled [cmdWrite 0#32] solving) = .next (drop solving) := ⟨rfl, rfl, rfl⟩

/-- StepsKeepBuffersCanonical: a step that writes the last entry. -/
theorem test_witness_StepsKeepBuffersCanonical :
    buffersWf ef1 ∧
      ∃ t, step (scheduled [cmdWrite 0x60AB00FE#32] ef1) = .next t ∧ t.cw.read 254 = some 0xAB#8 :=
  ⟨by decide, _, rfl, rfl⟩

/-- StepsKeepSolvingInputsReady: the step of acceptance, and a step while solving. -/
theorem test_witness_StepsKeepSolvingInputsReady :
    solvingReady (scheduled [cmdWrite 0xB0000000#32] ef1) ∧
      step (scheduled [cmdWrite 0xB0000000#32] ef1) = .next ef1Solving ∧ ef1Solving.phase = .solving ∧
      solvingReady (scheduled [cmdWrite 0#32] ef1Solving) ∧
      step (scheduled [cmdWrite 0#32] ef1Solving) = .next (drop ef1Solving) :=
  ⟨by decide, rfl, rfl, by decide, rfl⟩

/-- StepsNeverReachFatal: the solver's step from inputs that are ready. -/
theorem test_witness_StepsNeverReachFatal :
    solvingReady ef1Solving ∧ ef1Solving.phase ≠ .fatal ∧ step ef1Solving = .next ef1Done :=
  ⟨by decide, by decide, ef1_solved⟩

end Sys2Proof.Machine.Test
end

section
/-! ### The word a command was decoded from (30_encoding.md R71 to R74) -/

namespace Sys2Proof

/-- The encoder leaves RSV, bits 27:24, at 0 (R71). -/
theorem frame_rsv (op : BitVec 4) (fb : Byte) (fa : BitVec 16) : (frame op fb fa).extractLsb' 24 4 = 0#4 := by
  apply BitVec.eq_of_getLsbD_eq
  intro i hi
  simp [frame_getLsbD, hi, show ¬ 24 + i < 16 by omega, show 24 + i < 28 by omega]

/-- A word whose RSV is 0 is the frame of its own fields (R71). -/
theorem frame_fields {w : Word} (h : w.extractLsb' 24 4 = 0#4) :
    frame (Word.op w) (Word.fb w) (Word.fa w) = w := by
  apply BitVec.eq_of_getLsbD_eq
  intro i hi
  rw [frame_getLsbD]
  simp only [Word.op, Word.fb, Word.fa, BitVec.getLsbD_extractLsb']
  split_ifs with h1 h2 h3
  · simp [h1]
  · simp [show i - 16 < 8 by omega, show 16 + (i - 16) = i by omega]
  · have hbit := congrArg (BitVec.getLsbD · (i - 24)) h
    simpa [show i - 24 < 4 by omega, show 24 + (i - 24) = i by omega] using hbit.symm
  · simp [show i - 28 < 4 by omega, show 28 + (i - 28) = i by omega]

/-- A row whose mask checks all of OP and RSV fixes both in a word it selects, and of FB and FA the bits it masks
(R74, R76). -/
theorem fields_of_masked {w m : Word} {op : BitVec 4} (h : w &&& m = frame op 0#8 0#16)
    (hop : Word.op m = BitVec.allOnes 4) (hrsv : m.extractLsb' 24 4 = BitVec.allOnes 4) :
    frame op (Word.fb w) (Word.fa w) = w ∧ Word.fb w &&& Word.fb m = 0#8 ∧ Word.fa w &&& Word.fa m = 0#16 := by
  have field (start len : Nat) : w.extractLsb' start len &&& m.extractLsb' start len =
      (frame op 0#8 0#16).extractLsb' start len := by rw [← h, BitVec.extractLsb'_and]
  have hw : Word.op w = op := by
    rw [← BitVec.and_allOnes (x := Word.op w), ← hop]
    exact (field 28 4).trans (frame_op op 0#8 0#16)
  have hw0 : w.extractLsb' 24 4 = 0#4 := by
    rw [← BitVec.and_allOnes (x := w.extractLsb' 24 4), ← hrsv, field, frame_rsv]
  exact ⟨hw ▸ frame_fields hw0, (field 16 8).trans (frame_fb op 0#8 0#16), (field 0 16).trans (frame_fa op 0#8 0#16)⟩

/-- FA is its low byte zero-extended, where a row holds FA[15:8] at 0. -/
theorem fa8_setWidth {w : Word} (h : Word.fa w &&& 0xFF00#16 = 0#16) : (Word.fa8 w).setWidth 16 = Word.fa w := by
  apply BitVec.eq_of_getLsbD_eq
  intro i hi
  by_cases h8 : i < 8
  · simp [Word.fa8, Word.fa, hi, h8]
  · have hbit := congrArg (BitVec.getLsbD · i) h
    have hmask : ∀ j < 16, ¬ j < 8 → (0xFF00#16).getLsbD j = true := by decide
    simpa [Word.fa8, h8, hmask i hi h8] using hbit.symm

/-- FB is its low bit zero-extended, where a row holds FB[7:1] at 0. -/
theorem flag_setWidth {w : Word} (h : Word.fb w &&& 0xFE#8 = 0#8) :
    (BitVec.ofBool (Word.flag w)).setWidth 8 = Word.fb w := by
  have hlow : ∀ b : Byte, b &&& 0xFE#8 = 0#8 → (BitVec.ofBool (b.getLsbD 0)).setWidth 8 = b := by decide +kernel
  simpa [Word.fb, Word.flag] using hlow _ h

/-! The converses of `frame_and_twoBytes` and its like: a word that a row of each format selects is its operands'
frame. -/

theorem frame_of_twoBytes {w : Word} {op : BitVec 4} (h : w &&& 0xFF00FF00#32 = frame op 0#8 0#16) :
    frame op (Word.fb w) ((Word.fa8 w).setWidth 16) = w := by
  obtain ⟨hw, -, hfa⟩ := fields_of_masked h (by decide) (by decide)
  rwa [fa8_setWidth hfa]

theorem frame_of_oneByte {w : Word} {op : BitVec 4} (h : w &&& 0xFFFFFF00#32 = frame op 0#8 0#16) :
    frame op 0#8 ((Word.fa8 w).setWidth 16) = w := by
  obtain ⟨hw, hfb, hfa⟩ := fields_of_masked h (by decide) (by decide)
  have hfb : Word.fb w = 0#8 := BitVec.and_allOnes.symm.trans hfb
  rwa [fa8_setWidth hfa, ← hfb]

theorem frame_of_index {w : Word} {op : BitVec 4} (h : w &&& 0xFFFF0000#32 = frame op 0#8 0#16) :
    frame op 0#8 (Word.fa w) = w := by
  obtain ⟨hw, hfb, -⟩ := fields_of_masked h (by decide) (by decide)
  have hfb : Word.fb w = 0#8 := BitVec.and_allOnes.symm.trans hfb
  rwa [← hfb]

theorem frame_of_flag {w : Word} {op : BitVec 4} (h : w &&& 0xFFFEFF00#32 = frame op 0#8 0#16) :
    frame op ((BitVec.ofBool (Word.flag w)).setWidth 8) ((Word.fa8 w).setWidth 16) = w := by
  obtain ⟨hw, hfb, hfa⟩ := fields_of_masked h (by decide) (by decide)
  rwa [flag_setWidth hfb, fa8_setWidth hfa]

theorem frame_of_noOperand {w : Word} {op : BitVec 4} (h : w &&& 0xFFFFFFFF#32 = frame op 0#8 0#16) :
    frame op 0#8 0#16 = w := h.symm.trans BitVec.and_allOnes

/-- The decoder gives the command its fields name exactly if the word selects that command's row (R74, R182). -/
theorem decode_eq_ok_iff {w : Word} {i : Instr} :
    decode w = .ok i ↔ decodeFields w = some i ∧ i.selectedBy w = true := by
  unfold decode
  cases decodeFields w with
  | none => simp
  | some j =>
    constructor
    · intro h
      dsimp only at h
      split_ifs at h with hj
      cases h
      exact ⟨rfl, hj⟩
    · rintro ⟨⟨⟩, hj⟩
      exact if_pos hj

/-- The decoder gives a command only for the command's own word (R74). The cases are the rows of the opcode map. -/
theorem encode_of_decode {w : Word} {i : Instr} (h : decode w = .ok i) : encode i = w := by
  obtain ⟨hf, hs⟩ := decode_eq_ok_iff.1 h
  have hm : w &&& i.rowMask = i.rowMatch := beq_iff_eq.1 hs
  unfold decodeFields at hf
  split at hf <;> cases hf
  · exact frame_of_noOperand hm
  · exact frame_of_twoBytes hm
  · exact frame_of_twoBytes hm
  · exact frame_of_twoBytes hm
  · exact frame_of_index hm
  · exact frame_of_oneByte hm
  · exact frame_of_twoBytes hm
  · exact frame_of_oneByte hm
  · exact frame_of_flag hm
  · exact frame_of_oneByte hm
  · exact frame_of_twoBytes hm
  · exact frame_of_noOperand hm
  · exact frame_of_noOperand hm

end Sys2Proof
end

section
/-! ### What an event can do to the block (10_state.md R23 to R32) -/

namespace Sys2Proof.Machine

/-- What an event can do to the state `s`: `runEvent_next`, `command_next` and `solverTurn_next` put together, with the
event that does it (R15, R158, R182, R230). -/
inductive EventEffect (s : State) : Event → State → Prop
  /-- A read of a register of the window (R55). -/
  | read (size : Nat) (addr : BusAddr) (r : Reg) (hr : registerAt size addr = some r) :
      EventEffect s (.read size addr) { s with hostReads := registerValue r s :: s.hostReads }
  /-- A write to a register other than CMD (R56). -/
  | writeIgnored (size : Nat) (addr : BusAddr) (w : Word) (r : Reg) (hr : registerAt size addr = some r)
      (hne : r ≠ .cmd) : EventEffect s (.write size addr w) s
  /-- A word written to CMD in phase Fatal (R208). -/
  | ignored (w : Word) (hp : s.phase = .fatal) : EventEffect s (cmdWrite w) s
  /-- A word written to CMD in phase Solving (R207). -/
  | dropped (w : Word) (hp : s.phase = .solving) : EventEffect s (cmdWrite w) (drop s)
  /-- A word that is no command, in phase Idle (R206). -/
  | illegal (w : Word) (err : DecodeError) (hp : s.phase = .idle) (hd : decode w = .error err) :
      EventEffect s (cmdWrite w) (raise .illegalCommand s)
  /-- The word of a command, in phase Idle (R182). -/
  | command (i : Instr) (t : State) (hp : s.phase = .idle) (hd : decode (encode i) = .ok i) (he : Effect s i t) :
      EventEffect s (cmdWrite (encode i)) t
  /-- Reset (R230). -/
  | reset : EventEffect s .reset (assertReset s)
  /-- A turn of the solver with nothing owed (R158). -/
  | solverWaits (hp : s.phase ≠ .solving) : EventEffect s .solver s
  /-- The successful end of the solver's step (R158). -/
  | solved (mask : List Bool) (bytes xs : List Byte) (hp : s.phase = .solving) (hm : maskOf s = some mask)
      (hb : fixedBytes mask s = some bytes)
      (hx : solve s.n.toNat (erasureCount s) (positions false mask) ((positions true mask).zip bytes) = some xs) :
      EventEffect s .solver (writeBack (positions false mask) xs s)
  /-- The other end of the solver's step (R156). -/
  | unsolvable (mask : List Bool) (bytes : List Byte) (hp : s.phase = .solving) (hm : maskOf s = some mask)
      (hb : fixedBytes mask s = some bytes)
      (hx : solve s.n.toNat (erasureCount s) (positions false mask) ((positions true mask).zip bytes) = none) :
      EventEffect s .solver (unsolvable s)

theorem command_effect {w : Word} {s t : State} (h : command w s = .next t) : EventEffect s (cmdWrite w) t := by
  rcases command_next h with ⟨hp, rfl⟩ | ⟨hp, rfl⟩ | ⟨hp, ⟨i, hd, he⟩ | ⟨⟨err, hd⟩, rfl⟩⟩
  · exact .ignored w hp
  · exact .dropped w hp
  · obtain rfl := encode_of_decode hd
    exact .command i t hp hd he
  · exact .illegal w err hp hd

theorem solverTurn_effect {s t : State} (h : solverTurn s = .next t) : EventEffect s .solver t := by
  rcases solverTurn_next h with ⟨hp, rfl⟩ | ⟨hp, mask, bytes, hm, hb, ⟨xs, hx, rfl⟩ | ⟨hx, rfl⟩⟩
  · exact .solverWaits hp
  · exact .solved mask bytes xs hp hm hb hx
  · exact .unsolvable mask bytes hp hm hb hx

theorem runEvent_effect {e : Event} {s t : State} (h : runEvent e s = .next t) : EventEffect s e t := by
  rcases runEvent_next h with ⟨size, addr, r, rfl, hr, rfl⟩ | ⟨size, addr, w, rfl, hr, hc⟩ |
    ⟨size, addr, w, r, rfl, hr, hne, rfl⟩ | ⟨rfl, rfl⟩ | ⟨rfl, hs⟩
  · exact .read size addr r hr
  · obtain ⟨rfl, rfl⟩ := registerAt_eq_cmd hr
    exact command_effect hc
  · exact .writeIgnored size addr w r hr hne
  · exact .reset
  · exact solverTurn_effect hs

/-- A step is the event at the head of the schedule, or the solver's turn when there is none (R58, R59). -/
theorem step_effect {s t : State} (h : step s = .next t) :
    ∃ e rest, (s.schedule = e :: rest ∨ s.schedule = [] ∧ e = .solver) ∧ EventEffect (popEvent rest s) e t := by
  rcases step_next h with ⟨hs, h⟩ | ⟨e, rest, hs, h⟩
  · have hpop : popEvent [] s = s := by rw [← hs]; rfl
    exact ⟨.solver, [], .inr ⟨hs, rfl⟩, hpop.symm ▸ solverTurn_effect h⟩
  · exact ⟨e, rest, .inl hs, runEvent_effect h⟩

/-! ### The writers of each field among the commands -/

/-- The seven commands that compute a RESULT (R27). -/
def ComputesResult (i : Instr) : Prop :=
  (∃ a b, i = .gfAdd a b) ∨ (∃ a b, i = .gfMul a b) ∨ (∃ a b, i = .gfDiv a b) ∨ (∃ e, i = .gfExp e) ∨
    (∃ v, i = .gfLog v) ∨ (∃ a, i = .cwRd a) ∨ ∃ a, i = .fmRd a

theorem Effect.geometry_writers {s t : State} {i : Instr} (h : Effect s i t) :
    t.n = s.n ∧ t.known = s.known ∨ i = .setLen t.n t.known := by
  cases h with
  | setLen n known => exact .inr rfl
  | _ => exact .inl ⟨rfl, rfl⟩

theorem Effect.fm_writers {s t : State} {i : Instr} (h : Effect s i t) :
    t.fm = s.fm ∨ ∃ addr f, i = .fmWr addr f ∧ addr.toNat < Config.nMax ∧ t.fm = s.fm.write addr.toNat f := by
  cases h with
  | fmWr addr f hlt => exact .inr ⟨addr, f, rfl, hlt, rfl⟩
  | _ => exact .inl rfl

theorem Effect.cw_writers {s t : State} {i : Instr} (h : Effect s i t) :
    t.cw = s.cw ∨ ∃ addr d, i = .cwWr addr d ∧ addr.toNat < Config.nMax ∧ t.cw = s.cw.write addr.toNat d := by
  cases h with
  | cwWr addr d hlt => exact .inr ⟨addr, d, rfl, hlt, rfl⟩
  | _ => exact .inl rfl

theorem Effect.result_writers {s t : State} {i : Instr} (h : Effect s i t) :
    t.result = s.result ∨ t.ecode = .ok ∧ ComputesResult i := by
  cases h with
  | gfAdd a b => exact .inr ⟨rfl, .inl ⟨a, b, rfl⟩⟩
  | gfMul a b => exact .inr ⟨rfl, .inr (.inl ⟨a, b, rfl⟩)⟩
  | gfDiv a b => exact .inr ⟨rfl, .inr (.inr (.inl ⟨a, b, rfl⟩))⟩
  | gfExp e => exact .inr ⟨rfl, .inr (.inr (.inr (.inl ⟨e, rfl⟩)))⟩
  | gfLog v => exact .inr ⟨rfl, .inr (.inr (.inr (.inr (.inl ⟨v, rfl⟩))))⟩
  | cwRd addr => exact .inr ⟨rfl, .inr (.inr (.inr (.inr (.inr (.inl ⟨addr, rfl⟩)))))⟩
  | fmRd addr => exact .inr ⟨rfl, .inr (.inr (.inr (.inr (.inr (.inr ⟨addr, rfl⟩)))))⟩
  | _ => exact .inl rfl

theorem Effect.phase_moves {s t : State} {i : Instr} (h : Effect s i t) :
    t.phase = s.phase ∨ i = .eraseFill ∧ t.phase = .solving := by
  cases h with
  | eraseFill => exact .inr ⟨rfl, rfl⟩
  | _ => exact .inl rfl

theorem Effect.flags_kept {s t : State} {i : Instr} (h : Effect s i t) (hi : i ≠ .clrStatus) :
    (s.sticky = true → t.sticky = true) ∧ (s.overrun = true → t.overrun = true) := by
  cases h with
  | clrStatus => exact absurd rfl hi
  | raised => exact ⟨fun _ => rfl, id⟩
  | _ => exact ⟨id, id⟩

theorem Effect.sticky_rises {s t : State} {i : Instr} (h : Effect s i t) (hs : s.sticky = false)
    (ht : t.sticky = true) : t.ecode ≠ .ok := by
  cases h with
  | raised i c hc => exact hc
  | clrStatus => cases ht
  | _ => exact absurd ht (hs ▸ Bool.false_ne_true)

theorem Effect.overrun_never_rises {s t : State} {i : Instr} (h : Effect s i t) (ht : t.overrun = true) :
    s.overrun = true := by
  cases h with
  | clrStatus => cases ht
  | _ => exact ht

/-! ### The writers of each field among the events -/

section
variable {s t : State} {e : Event}

theorem EventEffect.geometry_writers (h : EventEffect s e t) :
    t.n = s.n ∧ t.known = s.known ∨ e = .reset ∨
      s.phase = .idle ∧ e = cmdWrite (encode (.setLen t.n t.known)) := by
  cases h with
  | reset => exact .inr (.inl rfl)
  | command i t hp hd he => exact he.geometry_writers.imp_right fun hi => .inr ⟨hp, congrArg (cmdWrite ∘ encode) hi⟩
  | _ => exact .inl ⟨rfl, rfl⟩

theorem EventEffect.fm_writers (h : EventEffect s e t) :
    t.fm = s.fm ∨ e = .reset ∧ t.fm = [] ∨
      ∃ addr f, s.phase = .idle ∧ e = cmdWrite (encode (.fmWr addr f)) ∧ addr.toNat < Config.nMax ∧
        t.fm = s.fm.write addr.toNat f := by
  cases h with
  | reset => exact .inr (.inl ⟨rfl, rfl⟩)
  | command i t hp hd he =>
    exact he.fm_writers.imp_right fun ⟨addr, f, hi, hlt, hw⟩ => .inr ⟨addr, f, hp, hi ▸ rfl, hlt, hw⟩
  | _ => exact .inl rfl

/-- The solver writes free positions below N only (R158). -/
theorem EventEffect.cw_writers (h : EventEffect s e t) :
    t.cw = s.cw ∨ e = .reset ∧ t.cw = [] ∨
      (∃ addr d, s.phase = .idle ∧ e = cmdWrite (encode (.cwWr addr d)) ∧ addr.toNat < Config.nMax ∧
        t.cw = s.cw.write addr.toNat d) ∨
      s.phase = .solving ∧ e = .solver ∧ ∃ ps : List (Nat × Byte),
        (∀ j ∈ ps.map Prod.fst, j < s.n.toNat ∧ isFixed s j = false) ∧ t.cw = s.cw.writeAll ps := by
  cases h with
  | reset => exact .inr (.inl ⟨rfl, rfl⟩)
  | command i t hp hd he =>
    exact he.cw_writers.imp_right fun ⟨addr, d, hi, hlt, hw⟩ => .inr (.inl ⟨addr, d, hp, hi ▸ rfl, hlt, hw⟩)
  | solved mask bytes xs hp hm =>
    refine .inr (.inr (.inr ⟨hp, rfl, _, fun j hj => (mem_free_iff hm).1 ?_, rfl⟩))
    obtain ⟨p, hp, rfl⟩ := List.mem_map.1 hj
    exact (List.of_mem_zip hp).1
  | _ => exact .inl rfl

theorem EventEffect.result_writers (h : EventEffect s e t) :
    t.result = s.result ∨ e = .reset ∨
      ∃ i, s.phase = .idle ∧ t.ecode = .ok ∧ e = cmdWrite (encode i) ∧ decode (encode i) = .ok i ∧
        ComputesResult i := by
  cases h with
  | reset => exact .inr (.inl rfl)
  | command i t hp hd he => exact he.result_writers.imp_right fun ⟨hc, hi⟩ => .inr ⟨i, hp, hc, rfl, hd, hi⟩
  | _ => exact .inl rfl

theorem EventEffect.phase_moves (h : EventEffect s e t) :
    t.phase = s.phase ∨
    (s.phase = .idle ∧ t.phase = .solving ∧ e = cmdWrite (encode .eraseFill)) ∨
    (s.phase = .solving ∧ t.phase = .idle ∧ t.ecode = .ok ∧ e = .solver) ∨
    (s.phase = .solving ∧ t.phase = .fatal ∧ t.ecode = .unsolvable ∧ e = .solver) ∨
    (t.phase = .idle ∧ e = .reset) := by
  cases h with
  | command i t hp hd he => exact he.phase_moves.imp_right fun ⟨hi, ht⟩ => .inl ⟨hp, ht, hi ▸ rfl⟩
  | solved mask bytes xs hp hm => exact .inr (.inr (.inl ⟨hp, rfl, rfl, rfl⟩))
  | unsolvable mask bytes hp => exact .inr (.inr (.inr (.inl ⟨hp, rfl, rfl, rfl⟩)))
  | reset => exact .inr (.inr (.inr (.inr ⟨rfl, rfl⟩)))
  | _ => exact .inl rfl

theorem EventEffect.flags_kept (h : EventEffect s e t) :
    (s.sticky = true → t.sticky = true) ∧ (s.overrun = true → t.overrun = true) ∨ e = .reset ∨
      s.phase = .idle ∧ e = cmdWrite (encode .clrStatus) := by
  cases h with
  | reset => exact .inr (.inl rfl)
  | command i t hp hd he =>
    by_cases hi : i = .clrStatus
    · exact .inr (.inr ⟨hp, hi ▸ rfl⟩)
    · exact .inl (he.flags_kept hi)
  | dropped => exact .inl ⟨id, fun _ => rfl⟩
  | illegal | unsolvable => exact .inl ⟨fun _ => rfl, id⟩
  | _ => exact .inl ⟨id, id⟩

theorem EventEffect.sticky_rises (h : EventEffect s e t) (hs : s.sticky = false) (ht : t.sticky = true) :
    t.ecode ≠ .ok := by
  cases h with
  | command i t hp hd he => exact he.sticky_rises hs ht
  | illegal | unsolvable => exact OutcomeCode.noConfusion
  | reset => cases ht
  | _ => exact absurd ht (hs ▸ Bool.false_ne_true)

theorem EventEffect.overrun_rises (h : EventEffect s e t) (hs : s.overrun = false) (ht : t.overrun = true) :
    s.phase = .solving ∧ ∃ w, e = cmdWrite w := by
  cases h with
  | dropped w hp => exact ⟨hp, w, rfl⟩
  | command i t hp hd he => exact absurd (he.overrun_never_rises ht) (hs ▸ Bool.false_ne_true)
  | reset => cases ht
  | _ => exact absurd ht (hs ▸ Bool.false_ne_true)

end

end Sys2Proof.Machine
end

section
/-! ### A buffer entry that a write changes -/

namespace Sys2Proof.Machine

theorem Memory.index_eq_of_read_write_ne {α : Type} {m : Memory α} {i j : Nat} {v : α}
    (h : (Memory.write m i v).read j ≠ m.read j) : i = j :=
  not_ne_iff.1 fun hij => h (Memory.read_write_other m v hij)

theorem Memory.mem_of_read_writeAll_ne {α : Type} {m : Memory α} {ps : List (Nat × α)} {j : Nat}
    (h : (Memory.writeAll m ps).read j ≠ m.read j) : j ∈ ps.map Prod.fst :=
  not_not.1 fun hj => h (Memory.read_writeAll_other hj)

/-! ### STATUS (R28) -/

/-- Bit `i` of STATUS. -/
theorem statusWord_getLsbD (s : State) (i : Nat) :
    (statusWord s).getLsbD i = if i = 0 then busy s else if i = 1 then fatal s else if i = 2 then s.overrun
      else if i = 3 then s.sticky else s.ecode.bits.getLsbD (i - 4) := by
  rw [statusWord]
  match i with
  | 0 | 1 | 2 | 3 => simp
  | i + 4 =>
    by_cases hi : i < 4
    · simp [show i + 4 < 32 by omega]
    · simp [BitVec.getLsbD_of_ge s.ecode.bits i (by omega)]

theorem busy_and_fatal (s : State) : ¬ (busy s = true ∧ fatal s = true) := by
  simp only [busy, fatal, decide_eq_true_eq]
  rintro ⟨hb, hf⟩
  exact Phase.noConfusion (hb.symm.trans hf)

theorem statusWord_ecode (s : State) : (statusWord s).extractLsb' 4 4 = s.ecode.bits := by
  apply BitVec.eq_of_getLsbD_eq
  intro i hi
  simp [statusWord_getLsbD, hi, show 4 + i ≠ 1 by omega, show 4 + i ≠ 2 by omega, show 4 + i ≠ 3 by omega]

theorem statusWord_lt (s : State) : (statusWord s).toNat < 2 ^ 8 := by
  refine Nat.lt_pow_two_of_testBit _ fun i hi => ?_
  change (statusWord s).getLsbD i = false
  simp [statusWord_getLsbD, show i ≠ 0 by omega, show i ≠ 1 by omega, show i ≠ 2 by omega, show i ≠ 3 by omega,
    BitVec.getLsbD_of_ge s.ecode.bits (i - 4) (by omega)]

end Sys2Proof.Machine
end

section
/-! ### The settled statements: the state (10_state.md) -/

namespace Sys2Proof.Machine

/-- An event that is not the solver's turn was taken off the schedule. -/
theorem schedule_of_ne_solver {s : State} {e : Event} {rest : List Event}
    (hs : s.schedule = e :: rest ∨ s.schedule = [] ∧ e = .solver) (he : e ≠ .solver) : s.schedule = e :: rest :=
  hs.resolve_right fun h => he h.2

theorem cmdWrite_ne_solver (w : Word) : cmdWrite w ≠ .solver := Event.noConfusion

theorem EventEffect.buffersWf {s t : State} {e : Event} (h : EventEffect s e t) (hs : buffersWf s) : buffersWf t := by
  obtain ⟨hcw, hfm⟩ := hs
  constructor
  · rcases h.cw_writers with heq | ⟨-, heq⟩ | ⟨addr, d, -, -, hlt, heq⟩ | ⟨-, -, ps, hps, heq⟩ <;> rw [heq]
    · exact hcw
    · exact Memory.wf_nil
    · exact Memory.wf_write hcw hlt d
    · refine Memory.wf_writeAll hcw fun p hp => ?_
      have hn : s.n.toNat ≤ Config.nMax := Nat.le_of_lt_succ s.n.isLt
      exact (hps _ (List.mem_map_of_mem hp)).1.trans_le hn
  · rcases h.fm_writers with heq | ⟨-, heq⟩ | ⟨addr, f, -, -, hlt, heq⟩ <;> rw [heq]
    · exact hfm
    · exact Memory.wf_nil
    · exact Memory.wf_write hfm hlt f

/-- Settles O55: a step is an event, and an event writes below N_MAX or empties the buffers. -/
theorem stepsKeepBuffersCanonical : Obligations.StepsKeepBuffersCanonical := by
  intro s t hs h
  obtain ⟨e, rest, -, he⟩ := step_effect h
  exact he.buffersWf hs

/-- Settles O52, from the writers of N, KNOWN and FM among the events. -/
theorem geometryAndMaskWriters : Obligations.GeometryAndMaskWriters := by
  intro s t h
  obtain ⟨e, rest, hs, he⟩ := step_effect h
  refine ⟨fun hne => ?_, fun j hne => ?_⟩
  · rcases he.geometry_writers with ⟨hn, hk⟩ | rfl | ⟨hp, rfl⟩
    · exact (hne.elim (· hn) (· hk)).elim
    · exact .inl ⟨rest, schedule_of_ne_solver hs Event.noConfusion⟩
    · exact .inr ⟨rest, hp, schedule_of_ne_solver hs (cmdWrite_ne_solver _)⟩
  · rcases he.fm_writers with heq | ⟨rfl, -⟩ | ⟨addr, f, hp, rfl, -, heq⟩
    · exact absurd (congrArg (Memory.read · j) heq) hne
    · exact .inl ⟨rest, schedule_of_ne_solver hs Event.noConfusion⟩
    · have hj : addr.toNat = j := Memory.index_eq_of_read_write_ne (heq ▸ hne)
      refine .inr ⟨addr, f, rest, hp, hj, ?_, schedule_of_ne_solver hs (cmdWrite_ne_solver _)⟩
      rw [heq, hj, Memory.read_write_same]

/-- Settles O53, from the writers of RESULT and CW among the events. -/
theorem resultAndCodewordWriters : Obligations.ResultAndCodewordWriters := by
  intro s t h
  obtain ⟨e, rest, hs, he⟩ := step_effect h
  refine ⟨fun hne => ?_, fun j hne => ?_⟩
  · rcases he.result_writers with heq | rfl | ⟨i, hp, hc, rfl, hd, hi⟩
    · exact absurd heq hne
    · exact .inl ⟨rest, schedule_of_ne_solver hs Event.noConfusion⟩
    · exact .inr ⟨_, rest, i, hp, hc, schedule_of_ne_solver hs (cmdWrite_ne_solver _), hd, hi⟩
  · rcases he.cw_writers with heq | ⟨rfl, -⟩ | ⟨addr, d, hp, rfl, -, heq⟩ | ⟨hp, rfl, ps, hps, heq⟩
    · exact absurd (congrArg (Memory.read · j) heq) hne
    · exact .inl ⟨rest, schedule_of_ne_solver hs Event.noConfusion⟩
    · have hj : addr.toNat = j := Memory.index_eq_of_read_write_ne (heq ▸ hne)
      refine .inr (.inl ⟨addr, d, rest, hp, hj, ?_, schedule_of_ne_solver hs (cmdWrite_ne_solver _)⟩)
      rw [heq, hj, Memory.read_write_same]
    · obtain ⟨hlt, hfree⟩ := hps j (Memory.mem_of_read_writeAll_ne (heq ▸ hne))
      exact .inr (.inr ⟨hp, hlt, hfree, hs.symm.imp And.left fun hs => ⟨rest, hs⟩⟩)

/-- Settles O54, from what moves STICKY and OVERRUN among the events. -/
theorem stickyAndOverrunWriters : Obligations.StickyAndOverrunWriters := by
  intro s t h
  obtain ⟨e, rest, hs, he⟩ := step_effect h
  refine ⟨fun hfall => ?_, he.sticky_rises, fun h0 h1 => ?_⟩
  · rcases he.flags_kept with ⟨hsticky, hoverrun⟩ | rfl | ⟨hp, rfl⟩
    · rcases hfall with ⟨h1, h0⟩ | ⟨h1, h0⟩
      · exact absurd (h0.symm.trans (hsticky h1)) Bool.false_ne_true
      · exact absurd (h0.symm.trans (hoverrun h1)) Bool.false_ne_true
    · exact .inl ⟨rest, schedule_of_ne_solver hs Event.noConfusion⟩
    · exact .inr ⟨rest, hp, schedule_of_ne_solver hs (cmdWrite_ne_solver _)⟩
  · obtain ⟨hp, w, rfl⟩ := he.overrun_rises h0 h1
    exact ⟨hp, w, rest, schedule_of_ne_solver hs (cmdWrite_ne_solver w)⟩

/-- Settles O51, from what moves the phase among the events. -/
theorem phaseTransitions : Obligations.PhaseTransitions := by
  refine ⟨rfl, fun s => ⟨statusWord_getLsbD s 0, statusWord_getLsbD s 1⟩, fun e s t h hne => ?_⟩
  exact (runEvent_effect h).phase_moves.resolve_left hne

/-- Settles O46, field by field. -/
theorem statusFields : Obligations.StatusFields := by
  intro s
  refine ⟨statusWord_getLsbD s 0, statusWord_getLsbD s 1, statusWord_getLsbD s 2, statusWord_getLsbD s 3, ?_,
    statusWord_lt s, ?_⟩
  · rw [statusWord_ecode]
    cases s.ecode <;> rfl
  · rw [statusWord_getLsbD s 0, statusWord_getLsbD s 1]
    exact busy_and_fatal s

/-- Settles O44: the values R37 lists, and two empty buffers. -/
theorem resetValues : Obligations.ResetValues :=
  ⟨rfl, by decide, rfl, rfl, rfl, by decide, by decide, fun _ => ⟨rfl, rfl⟩⟩

/-- Settles O56: both buffers are empty, and the phase is Idle. -/
theorem resetBuffersCanonical : Obligations.ResetBuffersCanonical :=
  ⟨⟨Memory.wf_nil, Memory.wf_nil⟩, Phase.noConfusion⟩

end Sys2Proof.Machine
end

section
/-! ### The register window (20_memory.md R50 to R56) -/

namespace Sys2Proof.Machine

/-- Every aligned offset of the window has its register, whether named or reserved (R50). -/
theorem exists_registerAt_of_aligned {o : BitVec 5} (h : o.toNat % 4 = 0) :
    ∃ r, registerAt 4 (.window o) = some r := by
  have haligned : ∀ o : BitVec 5, o.toNat % 4 = 0 → (registerAt 4 (.window o)).isSome := by decide
  exact Option.isSome_iff_exists.1 (haligned o h)

/-- An access that names a register is an aligned 32-bit access inside the window (R54). -/
theorem aligned_of_registerAt {size : Nat} {addr : BusAddr} {r : Reg} (h : registerAt size addr = some r) :
    size = 4 ∧ ∃ o, addr = .window o ∧ o.toNat % 4 = 0 := by
  cases addr with
  | outside a => cases h
  | window o =>
    by_cases hs : size = 4
    · subst hs
      have haligned : ∀ o : BitVec 5, (registerAt 4 (.window o)).isSome → o.toNat % 4 = 0 := by decide
      exact ⟨rfl, o, rfl, haligned o (Option.isSome_of_eq_some h)⟩
    · rw [registerAt, if_neg hs] at h
      cases h

/-- The offsets that read as 0: CMD and the reserved ones (R50, R55). -/
theorem registerAt_eq_cmd_or_reserved {o : BitVec 5} {r : Reg} (h : registerAt 4 (.window o) = some r)
    (hresult : o ≠ 0x04#5) (hstatus : o ≠ 0x08#5) (hconfig : o ≠ 0x0C#5) (hgeom : o ≠ 0x10#5) :
    r = .cmd ∨ r = .reserved := by
  have hcases : ∀ o : BitVec 5, o ≠ 0x04#5 → o ≠ 0x08#5 → o ≠ 0x0C#5 → o ≠ 0x10#5 →
      ∀ r ∈ registerAt 4 (.window o), r = .cmd ∨ r = .reserved := by decide
  exact hcases o hresult hstatus hconfig hgeom r h

/-! ### Host addresses (R10) -/

theorem base_mod_windowSize : Config.base % Config.windowSize = 0 := Nat.mul_mod_right _ _

theorem ofAddress_base_add {off : Nat} (h : off < Config.windowSize) :
    BusAddr.ofAddress (Config.base + off) = .window (BitVec.ofNat 5 off) := by
  rw [BusAddr.ofAddress, if_pos ⟨Nat.le_add_right _ _, Nat.add_lt_add_left h _⟩, Nat.add_sub_cancel_left]

/-- A host address that the block sees at an offset is BASE and that offset. -/
theorem eq_base_add_of_ofAddress {a : Nat} {o : BitVec 5} (h : BusAddr.ofAddress a = .window o) :
    a = Config.base + o.toNat := by
  unfold BusAddr.ofAddress at h
  split_ifs at h with hin
  cases h
  obtain ⟨hle, hlt⟩ := hin
  have hoff : a - Config.base < 2 ^ 5 := Nat.sub_lt_left_of_lt_add hle hlt
  rw [BitVec.toNat_ofNat, Nat.mod_eq_of_lt hoff, Nat.add_sub_cancel' hle]

/-- An access by host address that is not 4 bytes, not aligned or not inside the window names no register (R54). BASE
is a multiple of 4, so the address and its offset are aligned together. -/
theorem registerAt_ofAddress_eq_none {size a : Nat}
    (h : size ≠ 4 ∨ a % 4 ≠ 0 ∨ a < Config.base ∨ Config.base + Config.windowSize ≤ a) :
    registerAt size (BusAddr.ofAddress a) = none := by
  refine Option.eq_none_iff_forall_ne_some.2 fun r hr => ?_
  obtain ⟨hsize, o, hwin, halign⟩ := aligned_of_registerAt hr
  have ha : a = Config.base + o.toNat := eq_base_add_of_ofAddress hwin
  have hlt : o.toNat < Config.windowSize := o.isLt
  have hbase : Config.base % 0x20 = 0 := base_mod_windowSize
  omega

/-! ### Reads and writes -/

theorem hostRead_of_register {size : Nat} {addr : BusAddr} {r : Reg} (h : registerAt size addr = some r) (s : State) :
    hostRead size addr s = .next { s with hostReads := registerValue r s :: s.hostReads } := by
  simp only [hostRead, h]

theorem hostRead_of_none {size : Nat} {addr : BusAddr} (h : registerAt size addr = none) (s : State) :
    hostRead size addr s = .fault .refusedAccess := by
  simp only [hostRead, h]

theorem hostWrite_cmd (w : Word) (s : State) : hostWrite 4 (.window 0x00#5) w s = command w s := rfl

theorem hostWrite_of_ne_cmd {size : Nat} {addr : BusAddr} {r : Reg} (h : registerAt size addr = some r)
    (hne : r ≠ .cmd) (w : Word) (s : State) : hostWrite size addr w s = .next s := by
  cases r with
  | cmd => exact absurd rfl hne
  | _ => simp only [hostWrite, h]

theorem hostWrite_of_none {size : Nat} {addr : BusAddr} (h : registerAt size addr = none) (w : Word) (s : State) :
    hostWrite size addr w s = .fault .refusedAccess := by
  simp only [hostWrite, h]

/-- RESULT reads zero-extended (R27). -/
theorem resultWord_toNat (s : State) : (resultWord s).toNat = s.result.toNat :=
  BitVec.toNat_setWidth_of_le (by decide)

theorem configWord_eq : configWord = 0xFF02011D#32 := by decide

/-- GEOM is N below KNOWN (R30). -/
theorem geomWord_toNat (s : State) : (geomWord s).toNat = s.known.toNat * 256 + s.n.toNat := by
  have hshift : s.known.toNat <<< 8 < 2 ^ 32 := by
    rw [Nat.shiftLeft_eq]
    exact (Nat.mul_lt_mul_of_pos_right s.known.isLt (by decide)).trans (by decide)
  rw [geomWord, BitVec.toNat_or, BitVec.toNat_shiftLeft, BitVec.toNat_setWidth_of_le (by decide),
    BitVec.toNat_setWidth_of_le (by decide), Nat.mod_eq_of_lt hshift, ← Nat.shiftLeft_add_eq_or_of_lt s.n.isLt,
    Nat.shiftLeft_eq]

/-! ### The solver's turn (R58) -/

theorem solverTurn_of_ne_solving {s : State} (h : s.phase ≠ .solving) : solverTurn s = .next s := if_neg h

/-- Both ends of the solver's step leave phase Solving, and the schedule as it is. -/
theorem solverTurn_leaves_solving {s t : State} (hp : s.phase = .solving) (h : solverTurn s = .next t) :
    t.phase ≠ .solving ∧ t.schedule = s.schedule := by
  rcases solverTurn_next h with ⟨hne, -⟩ | ⟨-, mask, bytes, -, -, ⟨xs, -, rfl⟩ | ⟨-, rfl⟩⟩
  · exact absurd hp hne
  · exact ⟨Phase.noConfusion, rfl⟩
  · exact ⟨Phase.noConfusion, rfl⟩

/-! ### The settled statements: the window and its accesses (20_memory.md) -/

/-- Settles O49: such an access names no register, and a step that makes it faults. -/
theorem otherAccessesAreRefused : Obligations.OtherAccessesAreRefused := by
  refine ⟨fun size a w rest s h => ?_, fun off h => ofAddress_base_add h, base_mod_windowSize⟩
  have hnone : registerAt size (BusAddr.ofAddress a) = none := registerAt_ofAddress_eq_none h
  exact ⟨fun hs => (step_of_cons hs).trans (hostRead_of_none hnone _),
    fun hs => (step_of_cons hs).trans (hostWrite_of_none hnone w _)⟩

/-- Settles O50: with nothing scheduled a step is the solver's turn, which owes nothing outside phase Solving. -/
theorem onlyTheSolverMovesUnprompted : Obligations.OnlyTheSolverMovesUnprompted := by
  refine ⟨fun s hs => step_of_nil hs, fun s ⟨hs, hp⟩ => ?_, fun s t hs hp h => ?_⟩
  · rw [step_of_nil hs, solverTurn_of_ne_solving hp]
  · rw [step_of_nil hs] at h
    obtain ⟨hphase, hsched⟩ := solverTurn_leaves_solving hp h
    exact ⟨hsched.trans hs, hphase⟩

/-- Settles O47: the value is that of the register at the offset. -/
theorem readsReturnRegisters : Obligations.ReadsReturnRegisters := by
  intro offset s halign
  obtain ⟨r, hr⟩ := exists_registerAt_of_aligned halign
  refine ⟨registerValue r s, hostRead_of_register hr s, ?_, ?_, ?_, ?_, fun h4 h8 hC h10 => ?_⟩
  · rintro rfl
    cases hr
    exact resultWord_toNat s
  · rintro rfl
    cases hr
    rfl
  · rintro rfl
    cases hr
    exact configWord_eq
  · rintro rfl
    cases hr
    exact geomWord_toNat s
  · rcases registerAt_eq_cmd_or_reserved hr h4 h8 hC h10 with rfl | rfl <;> rfl

/-- Settles O48: CMD is the register of offset 0 alone. -/
theorem writesElsewhereAreIgnored : Obligations.WritesElsewhereAreIgnored := by
  intro offset w s halign
  constructor
  · rintro rfl
    exact ⟨hostWrite_cmd w s, fun i hi => (hostWrite_cmd w s).trans (command_of_decode hi s)⟩
  · intro hne
    obtain ⟨r, hr⟩ := exists_registerAt_of_aligned halign
    refine hostWrite_of_ne_cmd hr (fun hcmd => hne ?_) w s
    obtain ⟨-, haddr⟩ := registerAt_eq_cmd (hcmd ▸ hr)
    exact BusAddr.window.inj haddr

end Sys2Proof.Machine
end

section
/-! ### The rows of the opcode map, and the word of a command read back (30_encoding.md R71 to R76) -/

namespace Sys2Proof

open Laws

theorem Word.op_toNat (w : Word) : (Word.op w).toNat = w.toNat / 2 ^ 28 := by
  have hlt : w.toNat / 2 ^ 28 < 2 ^ 4 := by omega
  rw [Word.op, BitVec.extractLsb'_toNat, Nat.shiftRight_eq_div_pow, Nat.mod_eq_of_lt hlt]

/-- Every row's mask checks all of OP (R74). -/
theorem op_rowMask (i : Instr) : Word.op i.rowMask = BitVec.allOnes 4 := by
  cases i <;> simp only [Instr.rowMask] <;> decide

theorem selectedBy_iff {i : Instr} {w : Word} : i.selectedBy w = true ↔ w &&& i.rowMask = i.rowMatch := beq_iff_eq

theorem op_of_selectedBy {i : Instr} {w : Word} (h : i.selectedBy w = true) : Word.op w = Word.op i.rowMatch := by
  have hand : Word.op (w &&& i.rowMask) = Word.op w &&& Word.op i.rowMask := BitVec.extractLsb'_and
  rw [← selectedBy_iff.1 h, hand, op_rowMask, BitVec.and_allOnes]

/-- The opcode alone names the row: the decoder reads the fields of a command of that row (R72, R74). -/
theorem decodeFields_of_op {w : Word} {i : Instr} (h : Word.op w = Word.op i.rowMatch) :
    ∃ j, decodeFields w = some j ∧ j.rowMask = i.rowMask ∧ j.rowMatch = i.rowMatch := by
  unfold decodeFields
  rw [h]
  cases i <;> simp only [Instr.rowMatch] <;> exact ⟨_, rfl, rfl, rfl⟩

/-- No row has a reserved opcode (R75). -/
theorem op_rowMatch_lt (i : Instr) : (Word.op i.rowMatch).toNat < 0xD := by
  cases i <;> simp only [Instr.rowMatch] <;> decide

/-- Two commands with the opcode of one word have one row between them. -/
theorem row_unique {w : Word} {i i' : Instr} (h : Word.op w = Word.op i.rowMatch)
    (h' : Word.op w = Word.op i'.rowMatch) : i.rowMask = i'.rowMask ∧ i.rowMatch = i'.rowMatch := by
  obtain ⟨j, hj, hmask, hmatch⟩ := decodeFields_of_op h
  obtain ⟨j', hj', hmask', hmatch'⟩ := decodeFields_of_op h'
  obtain rfl : j = j' := Option.some.inj (hj.symm.trans hj')
  exact ⟨hmask.symm.trans hmask', hmatch.symm.trans hmatch'⟩

/-- The decoder gives a command for every word that selects a row (R74). -/
theorem exists_decode_of_selectedBy {w : Word} {i : Instr} (h : i.selectedBy w = true) : ∃ j, decode w = .ok j := by
  obtain ⟨j, hj, hmask, hmatch⟩ := decodeFields_of_op (op_of_selectedBy h)
  refine ⟨j, decode_eq_ok_iff.2 ⟨hj, selectedBy_iff.2 ?_⟩⟩
  rw [hmask, hmatch, selectedBy_iff.1 h]

/-- The word of a command selects the command's own row (R74, R76). -/
theorem selectedBy_encode : ∀ i : Instr, i.selectedBy (encode i) = true
  | .nop => RowMatch.nop
  | .gfAdd a b => RowMatch.gfAdd a b
  | .gfMul a b => RowMatch.gfMul a b
  | .gfDiv a b => RowMatch.gfDiv a b
  | .gfExp i => RowMatch.gfExp i
  | .gfLog v => RowMatch.gfLog v
  | .cwWr addr data => RowMatch.cwWr addr data
  | .cwRd addr => RowMatch.cwRd addr
  | .fmWr addr f => RowMatch.fmWr addr f
  | .fmRd addr => RowMatch.fmRd addr
  | .setLen n known => RowMatch.setLen n known
  | .eraseFill => RowMatch.eraseFill
  | .clrStatus => RowMatch.clrStatus

/-- The fields of a command's word are its opcode and its operands (R72, R73). -/
theorem decodeFields_encode (i : Instr) : decodeFields (encode i) = some i := by
  cases i <;> simp [decodeFields, encode]

theorem decode_encode (i : Instr) : decode (encode i) = .ok i :=
  decode_eq_ok_iff.2 ⟨decodeFields_encode i, selectedBy_encode i⟩

/-! ### Bytes (20_memory.md R53) -/

/-- The four bytes of a word make the word again. -/
theorem bytesWord_bytes (w : Word) :
    bytesWord (w.extractLsb' 0 8) (w.extractLsb' 8 8) (w.extractLsb' 16 8) (w.extractLsb' 24 8) = w := by
  apply BitVec.eq_of_getLsbD_eq
  intro i hi
  simp only [bytesWord, BitVec.getLsbD_or, BitVec.getLsbD_shiftLeft, BitVec.getLsbD_setWidth,
    BitVec.getLsbD_extractLsb']
  by_cases h8 : i < 8
  · simp [h8, hi, show i < 16 by omega, show i < 24 by omega]
  by_cases h16 : i < 16
  · simp [h8, h16, hi, show i < 24 by omega, show i - 8 < 8 by omega, show i - 8 < 32 by omega,
      show 8 + (i - 8) = i by omega]
  by_cases h24 : i < 24
  · simp [h8, h16, h24, hi, show i - 16 < 8 by omega, show i - 16 < 32 by omega, show ¬ i - 8 < 8 by omega,
      show 16 + (i - 16) = i by omega]
  · simp [h8, h16, h24, hi, show i - 24 < 8 by omega, show i - 24 < 32 by omega, show ¬ i - 8 < 8 by omega,
      show ¬ i - 16 < 8 by omega, show 24 + (i - 24) = i by omega]

/-- A command is decoded from a word's four bytes as from the word; the bytes after them are left over (R70). -/
theorem decodeBytes_wordBytes_append {w : Word} {i : Instr} (h : decode w = .ok i) (rest : List Byte) :
    decodeBytes (wordBytes w ++ rest) = .ok (i, rest) := by
  simp [wordBytes, decodeBytes, bytesWord_bytes, h]

/-! ### The assembler's check (R78) -/

theorem fits_iff {width v : Nat} : fits width v = true ↔ v < 2 ^ width := decide_eq_true_iff

theorem fits_and_fits_iff {m n a b : Nat} : (fits m a && fits n b) = true ↔ a < 2 ^ m ∧ b < 2 ^ n := by
  rw [Bool.and_eq_true, fits_iff, fits_iff]

/-- A command is assembled exactly under the condition its check comes to. -/
theorem assemble_of_wellFormed_iff {c : Asm} {p : Prop} [Decidable p] (h : c.wellFormed = true ↔ p) :
    assemble c = if p then some c.expand else none := if_congr h rfl rfl

/-- Commands with one check and one expansion are assembled alike; so R79's pseudo-commands are their expansions. -/
theorem assemble_congr {c c' : Asm} (hcheck : c.wellFormed = c'.wellFormed) (hexpand : c.expand = c'.expand) :
    assemble c = assemble c' := by
  rw [assemble, assemble, hcheck, hexpand]

/-- A flag given as a bit fits FB[0], so only the index of FM_WR is checked. -/
theorem wellFormed_fmWr_of_fits {addr f : Nat} (hf : fits 1 f = true) :
    (Asm.fmWr addr f).wellFormed = fits 8 addr := by
  rw [Asm.wellFormed, hf, Bool.and_true]

end Sys2Proof
end

section
/-! ### The settled statements: encoding (30_encoding.md) -/

namespace Sys2Proof.Machine

theorem command_of_not_selected {w : Word} {s : State} (hw : ∀ i : Instr, i.selectedBy w = false) :
    command w s = illegalCommand s := by
  cases hd : decode w with
  | error e => simp [command, hd]
  | ok i =>
    obtain ⟨-, hsel⟩ := decode_eq_ok_iff.1 hd
    exact absurd hsel (by simp [hw i])

/-- Settles O37: the fields of an encoding are the operands, and its row is the command's own. -/
theorem decodeOfEncode : Obligations.DecodeOfEncode :=
  ⟨decode_encode, fun i rest => decodeBytes_wordBytes_append (decode_encode i) rest⟩

/-- Settles O34: a row is selected only by words with its opcode, and no other row has that opcode. -/
theorem illegalWordsRaise : Obligations.IllegalWordsRaise := by
  refine ⟨fun w s hs hw => ?_, fun w hop i => ?_, fun w i hop hne i' => ?_⟩
  · rw [command_of_not_selected hw, illegalCommand, accept_of_idle hs]
    rfl
  · refine Bool.eq_false_iff.2 fun hsel => ?_
    have hlt := op_rowMatch_lt i
    rw [← op_of_selectedBy hsel, Word.op_toNat] at hlt
    omega
  · refine Bool.eq_false_iff.2 fun hsel => hne ?_
    rw [← Word.op_toNat, ← Word.op_toNat] at hop
    obtain ⟨hmask, hmatch⟩ := row_unique (BitVec.eq_of_toNat_eq hop) (op_of_selectedBy hsel)
    rw [hmask, hmatch, selectedBy_iff.1 hsel]

/-- Settles O36: the opcode of a word that selects a row names the row and the command the decoder reads. -/
theorem decodeSelectsTheOneRow : Obligations.DecodeSelectsTheOneRow := by
  refine ⟨fun w => ⟨fun ⟨i, hi⟩ => ?_, fun ⟨i, hi⟩ => exists_decode_of_selectedBy hi⟩, fun w i i' hi hi' => ?_,
    fun w i hi => encode_of_decode hi⟩
  · obtain ⟨-, hsel⟩ := decode_eq_ok_iff.1 hi
    exact ⟨i, hsel⟩
  · obtain ⟨-, hmatch⟩ := row_unique (op_of_selectedBy hi) (op_of_selectedBy hi')
    exact hmatch

/-- Settles O38: the decoder computes on each of the words. -/
theorem sampleWordsDecode : Obligations.SampleWordsDecode :=
  ⟨rfl, rfl, rfl, rfl, rfl, rfl, rfl, rfl, rfl⟩

/-- Settles O39: the check of each mnemonic comes to the bounds of its operands' fields. -/
theorem assemblerChecksOperands : Obligations.AssemblerChecksOperands := by
  refine ⟨⟨rfl, rfl, rfl⟩, fun a b => ?_, fun a => ?_, fun a b => assemble_congr rfl rfl,
    fun a => ⟨assemble_congr rfl rfl, assemble_congr (wellFormed_fmWr_of_fits (by decide)).symm rfl,
      assemble_congr (wellFormed_fmWr_of_fits (by decide)).symm rfl⟩⟩
  · have bytes : (fits 8 a && fits 8 b) = true ↔ a < 256 ∧ b < 256 := fits_and_fits_iff
    have byteBit : (fits 8 a && fits 1 b) = true ↔ a < 256 ∧ b < 2 := fits_and_fits_iff
    exact ⟨assemble_of_wellFormed_iff bytes, assemble_of_wellFormed_iff bytes, assemble_of_wellFormed_iff bytes,
      assemble_of_wellFormed_iff bytes, assemble_of_wellFormed_iff bytes, assemble_of_wellFormed_iff byteBit⟩
  · have byte : fits 8 a = true ↔ a < 256 := fits_iff
    have index : fits 16 a = true ↔ a < 65536 := fits_iff
    exact ⟨assemble_of_wellFormed_iff index, assemble_of_wellFormed_iff byte, assemble_of_wellFormed_iff byte,
      assemble_of_wellFormed_iff byte⟩

end Sys2Proof.Machine
end

section
/-! ### The field laws (40_field_ops.md R103 to R107) -/

namespace Sys2Proof.Machine

/-! ### Powers of α (R105, R106) -/

/-- An index counts modulo the order of the group (R105). -/
theorem gfExp_mod (e : Nat) : gfExp (e % 255) = gfExp e := by
  simp [gfExp, Config.groupOrder]

theorem gfExp_zero : gfExp 0 = 1#8 := expt_zero

/-- `α^p · α^q = α^(p+q)` (R103). -/
theorem gfMul_gfExp_gfExp (p q : Nat) : gfMul (gfExp p) (gfExp q) = gfExp (p + q) := by
  rw [gfMul_gfExp, gfExp_eq_iterate, gfExp_eq_iterate, Function.iterate_add_apply]

/-- α generates the multiplicative group (R101). -/
theorem exists_gfExp_eq {v : Byte} (hv : v ≠ 0#8) : ∃ p, gfExp p = v := ⟨_, gfExp_logt v hv⟩

theorem gfLog_of_ne {v : Byte} (hv : v ≠ 0#8) : gfLog v = .ok (logt v hv) := dif_neg hv

theorem gfLog_zero : gfLog 0#8 = .error .fieldDomainError := dif_pos rfl

/-! ### Multiplication -/

theorem gfMul_comm (a b : Byte) : gfMul a b = gfMul b a := by
  by_cases ha : a = 0#8
  · rw [ha, zero_gfMul, gfMul_zero]
  by_cases hb : b = 0#8
  · rw [hb, zero_gfMul, gfMul_zero]
  rw [gfMul_of_ne ha hb, gfMul_of_ne hb ha, Nat.add_comm]

/-- A non-zero factor is a power of α, and α's multiplication is iterated. -/
theorem gfMul_assoc (a b c : Byte) : gfMul (gfMul a b) c = gfMul a (gfMul b c) := by
  by_cases ha : a = 0#8
  · simp [ha]
  by_cases hb : b = 0#8
  · simp [hb]
  obtain ⟨p, rfl⟩ := exists_gfExp_eq ha
  obtain ⟨q, rfl⟩ := exists_gfExp_eq hb
  rw [gfMul_gfExp_gfExp, gfMul_gfExp, gfMul_gfExp, gfMul_gfExp, Function.iterate_add_apply]

@[simp] theorem one_gfMul (a : Byte) : gfMul 1#8 a = a := by
  rw [← gfExp_zero, gfMul_gfExp, Function.iterate_zero_apply]

@[simp] theorem gfMul_one (a : Byte) : gfMul a 1#8 = a := by rw [gfMul_comm, one_gfMul]

/-- A non-zero factor is a power of α, and α's multiplication is linear. -/
theorem gfMul_gfAdd (a b c : Byte) : gfMul a (gfAdd b c) = gfAdd (gfMul a b) (gfMul a c) := by
  by_cases ha : a = 0#8
  · simp [ha]
  obtain ⟨p, rfl⟩ := exists_gfExp_eq ha
  simp only [gfMul_gfExp, iterate_timesAlpha_gfAdd]

theorem gfAdd_gfMul (a b c : Byte) : gfMul (gfAdd a b) c = gfAdd (gfMul a c) (gfMul b c) := by
  rw [gfMul_comm, gfMul_gfAdd, gfMul_comm c a, gfMul_comm c b]

/-- There are no zero divisors: a product of non-zero elements is a power of α. -/
theorem gfMul_eq_zero_iff {a b : Byte} : gfMul a b = 0#8 ↔ a = 0#8 ∨ b = 0#8 := by
  constructor
  · intro h
    by_contra! hne
    obtain ⟨ha, hb⟩ := hne
    exact gfExp_ne_zero _ ((gfMul_of_ne ha hb).symm.trans h)
  · rintro (rfl | rfl)
    · exact zero_gfMul b
    · exact gfMul_zero a

theorem gfAdd_eq_zero_iff {a b : Byte} : gfAdd a b = 0#8 ↔ a = b := by rw [gfAdd_eq_iff, zero_gfAdd]

theorem gfMul_right_cancel {a b c : Byte} (hc : c ≠ 0#8) (h : gfMul a c = gfMul b c) : a = b := by
  have hz : gfMul (gfAdd a b) c = 0#8 := by rw [gfAdd_gfMul, h, gfAdd_self]
  exact gfAdd_eq_zero_iff.1 ((gfMul_eq_zero_iff.1 hz).resolve_right hc)

/-! ### Division (R104) -/

theorem gfDiv_of_ne (a : Byte) {b : Byte} (hb : b ≠ 0#8) : gfDiv a b = .ok (gfQuot a b hb) := dif_neg hb

theorem gfDiv_zero (a : Byte) : gfDiv a 0#8 = .error .divisionByZero := dif_pos rfl

theorem gfMul_gfQuot (a : Byte) {b : Byte} (hb : b ≠ 0#8) : gfMul (gfQuot a b hb) b = a := by
  by_cases ha : a = 0#8
  · subst ha
    rw [gfQuot_zero, zero_gfMul]
  have hlog := logt_lt b hb
  calc gfMul (gfQuot a b hb) b
      = gfMul (gfExp ((logt a ha).toNat + (255 - (logt b hb).toNat))) (gfExp (logt b hb).toNat) := by
        rw [gfQuot_of_ne ha hb, gfExp_logt]
    _ = gfExp ((logt a ha).toNat + 255) := by
        rw [gfMul_gfExp_gfExp, Nat.add_assoc, Nat.sub_add_cancel hlog.le]
    _ = gfExp (logt a ha).toNat := by
        rw [← gfExp_mod, Nat.add_mod_right, gfExp_mod]
    _ = a := gfExp_logt a ha

/-- The quotient is the only byte that multiplies back. -/
theorem gfQuot_eq_of_gfMul_eq {q a b : Byte} (hb : b ≠ 0#8) (h : gfMul q b = a) : gfQuot a b hb = q :=
  gfMul_right_cancel hb ((gfMul_gfQuot a hb).trans h.symm)

/-- The laws that elimination takes as a hypothesis hold of the tables (R107). -/
theorem fieldLaws : FieldLaws where
  mul_comm := gfMul_comm
  mul_assoc := gfMul_assoc
  mul_add := gfMul_gfAdd
  mul_quot := fun a _ hb => gfMul_gfQuot a hb
  cancel := fun _ _ _ hc h => gfMul_right_cancel hc h

/-! ### The product of polynomials (R100, R103) -/

/-- Multiplication by α commutes with any other multiplication. -/
theorem gfMul_timesAlpha (a b : Byte) : gfMul (timesAlpha a) b = timesAlpha (gfMul a b) := by
  have timesAlpha_eq_gfMul (x : Byte) : timesAlpha x = gfMul (gfExp 1) x := (gfMul_gfExp 1 x).symm
  rw [timesAlpha_eq_gfMul, timesAlpha_eq_gfMul, gfMul_assoc]

/-- One step of `polyMul`: shift and reduce what is accumulated, and add `a` if the bit of `b` is set. -/
def polyStep (a b acc : Byte) (k : Nat) : Byte :=
  gfAdd (timesAlpha acc) (if b.getLsbD (7 - k) then a else 0#8)

theorem polyMul_eq_foldl (a b : Byte) : polyMul a b = (List.range 8).foldl (polyStep a b) 0#8 := rfl

/-- A step for `a` is a step for 1, times `a`. -/
theorem polyStep_gfMul (a b acc : Byte) (k : Nat) :
    polyStep a b (gfMul acc a) k = gfMul (polyStep 1#8 b acc k) a := by
  have hbit : (if b.getLsbD (7 - k) then a else 0#8) = gfMul (if b.getLsbD (7 - k) then 1#8 else 0#8) a := by
    split_ifs
    · exact (one_gfMul a).symm
    · exact (zero_gfMul a).symm
  rw [polyStep, polyStep, hbit, gfAdd_gfMul, gfMul_timesAlpha]

/-- The bits of a byte, from the highest down, make the byte. -/
theorem polyMul_one : ∀ b : Byte, polyMul 1#8 b = b := by decide +kernel

theorem polyMul_eq_gfMul (a b : Byte) : polyMul a b = gfMul a b :=
  calc polyMul a b
      = (List.range 8).foldl (polyStep a b) (gfMul 0#8 a) := by rw [polyMul_eq_foldl, zero_gfMul]
    _ = gfMul (polyMul 1#8 b) a := List.foldl_hom (gfMul · a) fun acc k => polyStep_gfMul a b acc k
    _ = gfMul a b := by rw [polyMul_one, gfMul_comm]

/-! ### The generator (R100) -/

/-- The entries of the antilog table are those of the generator's loop. -/
theorem expt_eq_generatedExpt {i : Nat} (hi : i < 256) : expt i = generatedExpt i := by
  induction i with
  | zero => exact expt_zero
  | succ i ih => rw [expt_succ i (by omega), ih (by omega), generatedExpt]

end Sys2Proof.Machine
end

section
/-! ### The word of a command with an 8-bit operand in FA (30_encoding.md R71) -/

namespace Sys2Proof

theorem frame_setWidth_toNat (op : BitVec 4) (fb a : Byte) :
    (frame op fb (a.setWidth 16)).toNat = op.toNat * 2 ^ 28 + fb.toNat * 2 ^ 16 + a.toNat := by
  rw [frame_toNat, BitVec.toNat_setWidth_of_le (by decide)]

end Sys2Proof
end

section
/-! ### The field-operation commands (40_field_ops.md R108 to R112) -/

namespace Sys2Proof.Machine

theorem accept_answer_of_ok {s : State} {r : Except OutcomeCode Byte} {v : Byte} (hs : s.phase = .idle)
    (hr : r = .ok v) : accept s (answer r) = .next { s with result := v, ecode := .ok } := by
  rw [accept_of_idle hs, hr, answer_ok, complete]

theorem accept_answer_of_error {s : State} {r : Except OutcomeCode Byte} {c : OutcomeCode} (hs : s.phase = .idle)
    (hr : r = .error c) : accept s (answer r) = .next { s with ecode := c, sticky := true } := by
  rw [accept_of_idle hs, hr, answer_error, raise]

end Sys2Proof.Machine
end

section
/-! ### The settled statements: the field (40_field_ops.md) -/

namespace Sys2Proof.Machine

/-- Settles O3: each step of the polynomial product commutes with the multiplication by `a`, so the product is that of
1 and `b`, times `a`. -/
theorem mulIsPolynomialProduct : Obligations.MulIsPolynomialProduct :=
  fun a b => (polyMul_eq_gfMul a b).symm

/-- Settles O2, from the tables' being inverse and the period of the powers of α. -/
theorem expAndLogAreInverse : Obligations.ExpAndLogAreInverse := by
  refine ⟨fun v hv => ?_, fun e => ?_, fun k => ?_⟩
  · exact ⟨_, gfLog_of_ne hv, logt_lt v hv, gfExp_logt v hv⟩
  · exact ⟨_, gfLog_of_ne (gfExp_ne_zero e), logt_gfExp e⟩
  · rw [← gfExp_mod, Nat.mul_mod_right, gfExp_zero]

/-- Settles O4, law by law. -/
theorem fieldLawsHold : Obligations.FieldLawsHold :=
  ⟨gfAdd_assoc, gfAdd_comm, fun a => ⟨gfAdd_zero a, gfAdd_self a⟩, gfMul_assoc, gfMul_comm,
    fun a => ⟨gfMul_one a, gfMul_zero a⟩, gfMul_gfAdd, fun _ _ => gfMul_eq_zero_iff⟩

/-- Settles O5: the quotient multiplies back, and a non-zero factor cancels. -/
theorem divIsTheUniqueQuotient : Obligations.DivIsTheUniqueQuotient :=
  ⟨gfDiv_zero, fun a _ hb =>
    ⟨_, gfDiv_of_ne a hb, gfMul_gfQuot a hb, fun _ hr => (gfQuot_eq_of_gfMul_eq hb hr).symm⟩⟩

/-- Settles O1: the antilog table is the generator's loop, and the logarithm of an antilog is its index. -/
theorem tablesAreGenerated : Obligations.TablesAreGenerated := by
  refine ⟨fun i hi => expt_eq_generatedExpt hi, fun i hi => ?_⟩
  rw [← expt_eq_generatedExpt (by omega : i < 256)]
  exact ⟨expt_ne_zero i hi, logt_expt i hi⟩

/-- Settles O6: addition always answers a value, and does not use the tables. -/
theorem gfAddResult : Obligations.GfAddResult :=
  ⟨fun _ _ _ hs => accept_answer_of_ok hs rfl, fun a b => frame_setWidth_toNat 0x1#4 b a, rfl, rfl⟩

/-- Settles O7, its corner cases from the field laws. -/
theorem gfMulResult : Obligations.GfMulResult :=
  ⟨fun _ _ _ hs => accept_answer_of_ok hs rfl, fun a => ⟨gfMul_zero a, zero_gfMul a, one_gfMul a⟩, gfMul_comm,
    fun a b => frame_setWidth_toNat 0x2#4 b a, rfl, by decide⟩

/-- Settles O8, its corner cases from the uniqueness of the quotient. -/
theorem gfDivResult : Obligations.GfDivResult := by
  refine ⟨fun a s hs => accept_answer_of_error hs (gfDiv_zero a), fun a b s hs hb => ?_, fun b hb => ⟨?_, ?_⟩,
    fun a => ?_, fun a b => frame_setWidth_toNat 0x3#4 b a, rfl, rfl, by decide⟩
  · exact ⟨_, gfDiv_of_ne a hb, accept_answer_of_ok hs (gfDiv_of_ne a hb)⟩
  · rw [gfDiv_of_ne _ hb, gfQuot_zero]
  · rw [gfDiv_of_ne _ hb, gfQuot_eq_of_gfMul_eq hb (one_gfMul b)]
  · have h1 : 1#8 ≠ 0#8 := by decide
    rw [gfDiv_of_ne _ h1, gfQuot_eq_of_gfMul_eq h1 (gfMul_one a)]

/-- Settles O9: the index is taken modulo 255 as `gf_exp` does. -/
theorem gfExpResult : Obligations.GfExpResult :=
  ⟨fun _ _ hs => accept_answer_of_ok hs rfl, fun i => frame_toNat 0x4#4 0#8 i, by decide, rfl, by decide⟩

/-- Settles O10: the logarithm of a non-zero byte is below the order of the group. -/
theorem gfLogResult : Obligations.GfLogResult := by
  refine ⟨fun s hs => accept_answer_of_error hs gfLog_zero, fun v s hs hv => ?_, ⟨rfl, rfl⟩,
    fun v => frame_setWidth_toNat 0x5#4 0#8 v, rfl, rfl⟩
  exact ⟨_, gfLog_of_ne hv, logt_lt v hv, accept_answer_of_ok hs (gfLog_of_ne hv)⟩

end Sys2Proof.Machine
end

section
/-! ### The buffer commands (41_buffer_ops.md R130 to R134) -/

namespace Sys2Proof.Machine

theorem Memory.read_of_not_written {α : Type} {m : Memory α} {i : Nat} (h : m.written i = false) :
    m.read i = none := by
  simpa [Memory.written] using h

theorem Memory.written_write_same {α : Type} (m : Memory α) (i : Nat) (v : α) :
    Memory.written (Memory.write m i v) i = true := by
  rw [Memory.written, Memory.read_write_same, Option.isSome_some]

/-- A buffer that stays as it is, or takes one write unless `p` holds: what is kept of it. -/
theorem Memory.kept_of_write {α : Type} {m m' : Memory α} {i : Nat} {v : α} {p : Prop}
    (h : m' = m ∨ ¬p ∧ m' = m.write i v) : (∀ j, j ≠ i → m'.read j = m.read j) ∧ (p → m' = m) := by
  rcases h with rfl | ⟨hp, rfl⟩
  · exact ⟨fun _ _ => rfl, fun _ => rfl⟩
  · exact ⟨fun j hj => Memory.read_write_other m v hj.symm, fun h => absurd h hp⟩

theorem flagByte_eq (f : Bool) : flagByte f = if f then 0x01#8 else 0x00#8 := by
  cases f <;> rfl

theorem flagByte_toNat (f : Bool) : (flagByte f).toNat = if f then 1 else 0 := by
  cases f <;> rfl

theorem exec_setLen_of_idle {s : State} (hs : s.phase = .idle) (n known : Byte) :
    exec (.setLen n known) s = .next { s with n := n, known := known, ecode := .ok } :=
  accept_of_idle hs fun s => .next (complete { s with n := n, known := known })

/-! Each other buffer command is an index check behind acceptance; these two say what the check does in phase Idle. -/

theorem accept_withIndex_of_ge {s : State} {addr : Byte} (hs : s.phase = .idle) (h : Config.nMax ≤ addr.toNat)
    (run : Nat → State → Result) :
    accept s (fun s => withIndex addr s run) = .next { s with ecode := .invalidArgument, sticky := true } := by
  rw [accept_of_idle hs, withIndex_of_ge h, raise]

theorem accept_withIndex_of_lt {s : State} {addr : Byte} (hs : s.phase = .idle) (h : addr.toNat < Config.nMax)
    (run : Nat → State → Result) : accept s (fun s => withIndex addr s run) = run addr.toNat s := by
  rw [accept_of_idle hs, withIndex_of_lt h]

section
variable {s : State} {addr : Byte} (hs : s.phase = .idle) (h : addr.toNat < Config.nMax)
include hs h

theorem exec_cwWr_of_lt (data : Byte) :
    exec (.cwWr addr data) s = .next { s with cw := s.cw.write addr.toNat data, ecode := .ok } :=
  accept_withIndex_of_lt hs h _

theorem exec_fmWr_of_lt (f : Bool) :
    exec (.fmWr addr f) s = .next { s with fm := s.fm.write addr.toNat f, ecode := .ok } :=
  accept_withIndex_of_lt hs h _

theorem exec_cwRd_of_lt : exec (.cwRd addr) s = withEntry (s.cw.read addr.toNat) fun v => answer (.ok v) s :=
  accept_withIndex_of_lt hs h _

theorem exec_fmRd_of_lt :
    exec (.fmRd addr) s = withEntry (s.fm.read addr.toNat) fun f => answer (.ok (flagByte f)) s :=
  accept_withIndex_of_lt hs h _

theorem exec_cwRd_of_read {v : Byte} (hv : s.cw.read addr.toNat = some v) :
    exec (.cwRd addr) s = .next { s with result := v, ecode := .ok } := by
  rw [exec_cwRd_of_lt hs h, hv, withEntry_some, answer_ok, complete]

theorem exec_fmRd_of_read {f : Bool} (hf : s.fm.read addr.toNat = some f) :
    exec (.fmRd addr) s = .next { s with result := if f then 0x01#8 else 0x00#8, ecode := .ok } := by
  rw [exec_fmRd_of_lt hs h, hf, withEntry_some, answer_ok, complete, flagByte_eq]

end

/-! ### What the two writing commands can do, in every phase -/

/-- What CW_WR and FM_WR can do, in every phase: in range, from phase Idle, the buffers become `cw'` and `fm'`. -/
inductive BufferWriteEffect (addr : Byte) (s : State) (cw' : Memory Byte) (fm' : Memory Bool) : State → Prop
  /-- The command comes in phase Fatal (R208). -/
  | ignored (hp : s.phase = .fatal) : BufferWriteEffect addr s cw' fm' s
  /-- The command comes in phase Solving (R207). -/
  | dropped (hp : s.phase = .solving) : BufferWriteEffect addr s cw' fm' (drop s)
  /-- The index is N_MAX or above (R131, R133). -/
  | outOfRange (hp : s.phase = .idle) (hge : Config.nMax ≤ addr.toNat) :
      BufferWriteEffect addr s cw' fm' (raise .invalidArgument s)
  /-- The entry is written (R131, R133). -/
  | written (hp : s.phase = .idle) (hlt : addr.toNat < Config.nMax) :
      BufferWriteEffect addr s cw' fm' (complete { s with cw := cw', fm := fm' })

theorem accept_withIndex_effect {addr : Byte} {s t : State} {cw' : Memory Byte} {fm' : Memory Bool}
    {run : Nat → State → Result} (h : accept s (fun s => withIndex addr s run) = .next t)
    (hrun : run addr.toNat s = .next (complete { s with cw := cw', fm := fm' })) :
    BufferWriteEffect addr s cw' fm' t := by
  rcases accept_next h with ⟨hp, rfl⟩ | ⟨hp, rfl⟩ | ⟨hp, h⟩
  · exact .ignored hp
  · exact .dropped hp
  · rcases withIndex_next h with ⟨hge, rfl⟩ | ⟨hlt, h⟩
    · exact .outOfRange hp hge
    · obtain rfl := Host.Outcome.next.inj (hrun.symm.trans h)
      exact .written hp hlt

theorem exec_cwWr_effect {addr data : Byte} {s t : State} (h : exec (.cwWr addr data) s = .next t) :
    BufferWriteEffect addr s (s.cw.write addr.toNat data) s.fm t := accept_withIndex_effect h rfl

theorem exec_fmWr_effect {addr : Byte} {f : Bool} {s t : State} (h : exec (.fmWr addr f) s = .next t) :
    BufferWriteEffect addr s s.cw (s.fm.write addr.toNat f) t := accept_withIndex_effect h rfl

/-- The frame CW_WR and FM_WR have in common: every field but the two buffers. -/
def BufferWriteFrame (addr : Byte) (s t : State) : Prop :=
  t.result = s.result ∧ t.n = s.n ∧ t.known = s.known ∧ t.phase = s.phase ∧ t.schedule = s.schedule ∧
    t.hostReads = s.hostReads ∧ (s.phase ≠ .solving → t.overrun = s.overrun) ∧
    (s.phase ≠ .idle → t.ecode = s.ecode) ∧ (t.sticky = s.sticky ∨ s.phase = .idle ∧ Config.nMax ≤ addr.toNat)

section
variable {addr : Byte} {s t : State} {cw' : Memory Byte} {fm' : Memory Bool}

theorem BufferWriteEffect.frame (h : BufferWriteEffect addr s cw' fm' t) : BufferWriteFrame addr s t := by
  cases h with
  | ignored => exact ⟨rfl, rfl, rfl, rfl, rfl, rfl, fun _ => rfl, fun _ => rfl, .inl rfl⟩
  | dropped hp => exact ⟨rfl, rfl, rfl, rfl, rfl, rfl, fun hne => absurd hp hne, fun _ => rfl, .inl rfl⟩
  | outOfRange hp hge =>
    exact ⟨rfl, rfl, rfl, rfl, rfl, rfl, fun _ => rfl, fun hne => absurd hp hne, .inr ⟨hp, hge⟩⟩
  | written hp => exact ⟨rfl, rfl, rfl, rfl, rfl, rfl, fun _ => rfl, fun hne => absurd hp hne, .inl rfl⟩

/-! A buffer is as before unless the command runs with its index in range. -/

theorem BufferWriteEffect.cw (h : BufferWriteEffect addr s cw' fm' t) :
    t.cw = s.cw ∨ ¬(Config.nMax ≤ addr.toNat ∨ s.phase ≠ .idle) ∧ t.cw = cw' := by
  cases h with
  | written hp hlt => exact .inr ⟨fun hout => hout.elim hlt.not_ge (· hp), rfl⟩
  | _ => exact .inl rfl

theorem BufferWriteEffect.fm (h : BufferWriteEffect addr s cw' fm' t) :
    t.fm = s.fm ∨ ¬(Config.nMax ≤ addr.toNat ∨ s.phase ≠ .idle) ∧ t.fm = fm' := by
  cases h with
  | written hp hlt => exact .inr ⟨fun hout => hout.elim hlt.not_ge (· hp), rfl⟩
  | _ => exact .inl rfl

end

/-! ### What the other commands leave unchanged -/

theorem Effect.host_kept {s t : State} {i : Instr} (h : Effect s i t) :
    t.schedule = s.schedule ∧ t.hostReads = s.hostReads := by
  cases h <;> exact ⟨rfl, rfl⟩

theorem Effect.overrun_kept {s t : State} {i : Instr} (h : Effect s i t) (hi : i ≠ .clrStatus) :
    t.overrun = s.overrun :=
  Bool.eq_iff_iff.2 ⟨h.overrun_never_rises, (h.flags_kept hi).2⟩

theorem Effect.sticky_kept {s t : State} {i : Instr} (h : Effect s i t) (hi : i ≠ .clrStatus) (hok : t.ecode = .ok) :
    t.sticky = s.sticky := by
  cases hs : s.sticky with
  | true => exact (h.flags_kept hi).1 hs
  | false => exact Bool.eq_false_iff.2 fun ht => h.sticky_rises hs ht hok

/-- An entry of CW stays as it is across any command that is no CW_WR to it. -/
theorem exec_keeps_cw_entry {i : Instr} {s t : State} {addr : Byte} (h : exec i s = .next t)
    (hi : ∀ d, i ≠ .cwWr addr d) : t.cw.read addr.toNat = s.cw.read addr.toNat := by
  rcases exec_next h with ⟨-, rfl⟩ | ⟨-, rfl⟩ | ⟨-, he⟩
  · rfl
  · rfl
  · rcases he.cw_writers with heq | ⟨addr', d, rfl, -, heq⟩
    · rw [heq]
    · have hne : addr'.toNat ≠ addr.toNat := fun hj => hi d (BitVec.eq_of_toNat_eq hj ▸ rfl)
      rw [heq, Memory.read_write_other _ _ hne]

end Sys2Proof.Machine
end

section
/-! ### The settled statements: the buffer commands (41_buffer_ops.md) -/

namespace Sys2Proof.Machine

/-- Settles O18: CW_WR stores the entry, the command between keeps it, and CW_RD answers it. -/
theorem cwReadsBackWhatWasWritten : Obligations.CwReadsBackWhatWasWritten := by
  intro addr data i s t u hs hlt hwr hi h hu
  have ht : t.cw.read addr.toNat = some data := by
    rw [exec_cwWr_of_lt hs hlt] at hwr
    cases hwr
    exact Memory.read_write_same _ _ _
  exact exec_cwRd_of_read hu hlt ((exec_keeps_cw_entry h hi).trans ht)

/-- Settles O19: one buffer takes at most one write, the other none, and the rest of the frame is common to both
commands. -/
theorem bufferWritesFrame : Obligations.BufferWritesFrame := by
  refine fun addr s t => ⟨fun ⟨data, h⟩ => ?_, fun ⟨f, h⟩ => ?_⟩
  · have he := exec_cwWr_effect h
    obtain ⟨hother, hkept⟩ := Memory.kept_of_write he.cw
    exact ⟨hother, hkept, he.fm.elim id And.right, he.frame⟩
  · have he := exec_fmWr_effect h
    obtain ⟨hother, hkept⟩ := Memory.kept_of_write he.fm
    exact ⟨hother, hkept, he.cw.elim id And.right, he.frame⟩

/-- Settles O20: outside Idle a command is ignored or dropped; in Idle the writers of each field tell. -/
theorem otherCommandsFrame : Obligations.OtherCommandsFrame := by
  intro i s t hi h
  rcases exec_next h with ⟨hp, rfl⟩ | ⟨hp, rfl⟩ | ⟨hp, he⟩
  · exact ⟨fun _ => rfl, fun _ => rfl, rfl, rfl, .inr (.inr rfl), .inr ⟨rfl, rfl⟩, .inr rfl, .inr ⟨id, id⟩,
      fun _ _ => rfl, fun _ _ _ => rfl, fun _ => ⟨rfl, rfl, rfl⟩⟩
  · exact ⟨fun _ => rfl, fun _ => rfl, rfl, rfl, .inr (.inr rfl), .inr ⟨rfl, rfl⟩, .inr rfl,
      .inr ⟨id, fun _ => rfl⟩, fun hidle => Phase.noConfusion (hp.symm.trans hidle), fun _ _ _ => rfl,
      fun _ => ⟨rfl, rfl, rfl⟩⟩
  · have hcw : t.cw = s.cw := he.cw_writers.resolve_right (by rintro ⟨addr, d, rfl, -⟩; simp at hi)
    have hfm : t.fm = s.fm := he.fm_writers.resolve_right (by rintro ⟨addr, f, rfl, -⟩; simp at hi)
    have hresult : (∃ a, i = .cwRd a) ∨ (∃ a, i = .fmRd a) ∨ t.result = s.result := by
      rcases he.result_writers with heq | ⟨-, hc⟩
      · exact .inr (.inr heq)
      · rcases hi with hi | hi | ⟨n, k, rfl⟩ | rfl | rfl | rfl
        · exact .inl hi
        · exact .inr (.inl hi)
        all_goals simp [ComputesResult] at hc
    obtain ⟨hschedule, hreads⟩ := he.host_kept
    exact ⟨fun j => by rw [hcw], fun j => by rw [hfm], hschedule, hreads, hresult,
      he.geometry_writers.symm.imp_left fun hi => ⟨_, _, hi⟩, he.phase_moves.symm.imp_left And.left,
      or_iff_not_imp_left.2 he.flags_kept, fun _ => he.overrun_kept, fun _ => he.sticky_kept,
      fun hne => absurd hp hne⟩

/-- Settles O13: SET_LEN has no check of its operands. -/
theorem setLenResult : Obligations.SetLenResult := by
  refine ⟨fun n known s hs => exec_setLen_of_idle hs n known, fun n known => frame_setWidth_toNat 0xA#4 known n, rfl,
    fun s => BitVec.eq_of_toNat_eq ?_⟩
  simp [geomWord_toNat]

/-- Settles O14: the index check, then one write of CW. -/
theorem cwWrResult : Obligations.CwWrResult := by
  refine ⟨fun addr data s hs hge => accept_withIndex_of_ge hs hge _, fun addr data s hs hlt => ?_,
    fun addr data => frame_setWidth_toNat 0x6#4 data addr, rfl⟩
  exact ⟨_, exec_cwWr_of_lt hs hlt data, Memory.read_write_same _ _ _, Memory.written_write_same _ _ _,
    fun j hj => Memory.read_write_other _ _ hj.symm⟩

/-- Settles O15: the index check, then whether the entry has been written. -/
theorem cwRdResult : Obligations.CwRdResult := by
  refine ⟨fun addr s hs hge => accept_withIndex_of_ge hs hge _, fun addr s hs hlt hw => ?_,
    fun addr v s hs hlt hv => exec_cwRd_of_read hs hlt hv, fun addr => frame_setWidth_toNat 0x7#4 0#8 addr, rfl⟩
  rw [exec_cwRd_of_lt hs hlt, Memory.read_of_not_written hw, withEntry_none]

/-- Settles O16: as CW_WR; a word that FM_WR's row selects has only FB[0] beside its index. -/
theorem fmWrResult : Obligations.FmWrResult := by
  refine ⟨fun addr f s hs hge => accept_withIndex_of_ge hs hge _, fun addr f s hs hlt => ?_, fun addr f => ?_,
    fun w s hs hop hfb => ?_, rfl⟩
  · exact ⟨_, exec_fmWr_of_lt hs hlt f, Memory.read_write_same _ _ _, Memory.written_write_same _ _ _,
      fun j hj => Memory.read_write_other _ _ hj.symm⟩
  · rw [← flagByte_toNat]
    exact frame_setWidth_toNat 0x8#4 (flagByte f) addr
  · obtain ⟨hraise, -, hrow⟩ := illegalWordsRaise
    refine hraise w s hs (hrow w (.fmWr 0#8 false) hop fun hmatch => hfb ?_)
    have hw : frame 0x8#4 (flagByte (Word.flag w)) ((Word.fa8 w).setWidth 16) = w := frame_of_flag hmatch
    have haddr := (Word.fa8 w).isLt
    rw [← hw, frame_setWidth_toNat, flagByte_toNat, BitVec.toNat_ofNat]
    split <;> omega

/-- Settles O17: as CW_RD, with the flag as a byte. -/
theorem fmRdResult : Obligations.FmRdResult := by
  refine ⟨fun addr s hs hge => accept_withIndex_of_ge hs hge _, fun addr s hs hlt hw => ?_,
    fun addr f s hs hlt hf => exec_fmRd_of_read hs hlt hf, fun addr f s t hs hlt h => ?_,
    fun addr => frame_setWidth_toNat 0x9#4 0#8 addr, rfl⟩
  · rw [exec_fmRd_of_lt hs hlt, Memory.read_of_not_written hw, withEntry_none]
  · obtain ⟨hp, hf⟩ : t.phase = .idle ∧ t.fm.read addr.toNat = some f := by
      rw [exec_fmWr_of_lt hs hlt] at h
      cases h
      exact ⟨hs, Memory.read_write_same _ _ _⟩
    exact exec_fmRd_of_read hp hlt hf

end Sys2Proof.Machine
end

section
/-! ### The weights of the free positions are independent (42_erasure_fill.md R160)

Vandermonde's argument in the model's own products: `Byte` carries no ring structure whose product is `gfMul`. -/

namespace Sys2Proof.Machine

/-! #### The weights as powers of a position's node (R152) -/

theorem weight_zero (n pos : Nat) : weight n 0 pos = 1#8 := by
  rw [weight, Nat.zero_mul, gfExp_zero]

theorem weight_succ (n i pos : Nat) : weight n (i + 1) pos = gfMul (weight n i pos) (weight n 1 pos) := by
  rw [weight, weight, weight, gfMul_gfExp_gfExp, ← Nat.add_mul]

theorem gfExp_injective_of_lt {p q : Nat} (hp : p < 255) (hq : q < 255) (h : gfExp p = gfExp q) : p = q := by
  have hlog := congrArg BitVec.toNat (logt_congr h (gfExp_ne_zero p))
  rwa [logt_gfExp, logt_gfExp, Nat.mod_eq_of_lt hp, Nat.mod_eq_of_lt hq] at hlog

/-- Different positions have different nodes, because N is at most the order of α. -/
theorem weight_one_injective {n p q : Nat} (hn : n ≤ Config.nMax) (hp : p < n) (hq : q < n)
    (h : weight n 1 p = weight n 1 q) : p = q := by
  have hmax : n ≤ 255 := hn
  rw [weight, weight, Nat.one_mul, Nat.one_mul] at h
  have hexp := gfExp_injective_of_lt (by omega) (by omega) h
  omega

/-! #### What pairs of a position and a value add to a parity check (R152) -/

/-- What the (position, value) pairs add to parity check `i`. -/
def checkPart (n : Nat) (ps : List (Nat × Byte)) (i : Nat) : Byte :=
  xorSum (ps.map fun p => gfMul (weight n i p.1) p.2)

theorem checkPart_cons (n : Nat) (p : Nat × Byte) (ps : List (Nat × Byte)) (i : Nat) :
    checkPart n (p :: ps) i = gfAdd (gfMul (weight n i p.1) p.2) (checkPart n ps i) := xorSum_cons _ _

/-- The left side of row `i` of the matrix of R153. -/
theorem checkPart_zip (n : Nat) (free : List Nat) (xs : List Byte) (i : Nat) :
    checkPart n (free.zip xs) i = dot (free.map (weight n i)) xs := by
  rw [checkPart, dot, List.zip, List.map_zipWith, List.zipWith_map_left]

theorem checkPart_of_values_zero {n : Nat} {ps : List (Nat × Byte)} (h : ∀ p ∈ ps, p.2 = 0#8) (i : Nat) :
    checkPart n ps i = 0#8 := by
  induction ps with
  | nil => rfl
  | cons p ps ih =>
    obtain ⟨hp, hps⟩ := List.forall_mem_cons.1 h
    rw [checkPart_cons, hp, gfMul_zero, zero_gfAdd, ih hps]

/-- Each value times the difference of its position's node and that of `pos`: a value at `pos` becomes 0. -/
def scaleFrom (n pos : Nat) (ps : List (Nat × Byte)) : List (Nat × Byte) :=
  ps.map fun p => (p.1, gfMul (gfAdd (weight n 1 p.1) (weight n 1 pos)) p.2)

theorem scaleFrom_cons (n pos : Nat) (p : Nat × Byte) (ps : List (Nat × Byte)) :
    scaleFrom n pos (p :: ps) =
      (p.1, gfMul (gfAdd (weight n 1 p.1) (weight n 1 pos)) p.2) :: scaleFrom n pos ps := rfl

theorem length_scaleFrom (n pos : Nat) (ps : List (Nat × Byte)) : (scaleFrom n pos ps).length = ps.length :=
  List.length_map _

theorem positions_scaleFrom (n pos : Nat) (ps : List (Nat × Byte)) :
    (scaleFrom n pos ps).map Prod.fst = ps.map Prod.fst := by
  rw [scaleFrom, List.map_map]
  rfl

/-- Scaling turns each check into the next one less a multiple of itself. -/
theorem checkPart_scaleFrom (n pos : Nat) (ps : List (Nat × Byte)) (i : Nat) :
    checkPart n (scaleFrom n pos ps) i =
      gfAdd (checkPart n ps (i + 1)) (gfMul (weight n 1 pos) (checkPart n ps i)) := by
  induction ps with
  | nil => exact (gfAdd_eq_zero_iff.2 (gfMul_zero _).symm).symm
  | cons p ps ih =>
    have hterm : gfMul (weight n i p.1) (gfMul (gfAdd (weight n 1 p.1) (weight n 1 pos)) p.2) =
        gfAdd (gfMul (weight n (i + 1) p.1) p.2) (gfMul (weight n 1 pos) (gfMul (weight n i p.1) p.2)) := by
      rw [weight_succ n i, ← gfMul_assoc, ← gfMul_assoc, gfMul_gfAdd, gfAdd_gfMul, gfMul_comm (weight n 1 pos)]
    rw [scaleFrom_cons, checkPart_cons, checkPart_cons, checkPart_cons, ih, hterm, gfMul_gfAdd]
    simp only [gfAdd]
    ac_rfl

/-- As many vanishing checks as positions leave no value but 0. Scaling from the first position leaves one position and
one check fewer, and takes no value to 0 at any other position. -/
theorem values_zero_of_checkPart_zero {n : Nat} (hn : n ≤ Config.nMax) {ps : List (Nat × Byte)}
    (hnodup : (ps.map Prod.fst).Nodup) (hlt : ∀ p ∈ ps, p.1 < n) (h : ∀ i < ps.length, checkPart n ps i = 0#8) :
    ∀ p ∈ ps, p.2 = 0#8 := by
  induction hl : ps.length generalizing ps with
  | zero => simp [List.length_eq_zero_iff.1 hl]
  | succ k ih =>
    obtain ⟨⟨pos, v⟩, ps, rfl⟩ := List.exists_cons_of_length_eq_add_one hl
    have hk : ps.length = k := Nat.succ.inj hl
    obtain ⟨hpos, hnodup⟩ := List.nodup_cons.1 hnodup
    obtain ⟨hposn, hlt⟩ := List.forall_mem_cons.1 hlt
    have hchecks : ∀ i < k, checkPart n (scaleFrom n pos ps) i = 0#8 := fun i hi => by
      have hdrop : checkPart n (scaleFrom n pos ((pos, v) :: ps)) i = checkPart n (scaleFrom n pos ps) i := by
        rw [scaleFrom_cons, checkPart_cons, gfAdd_self, zero_gfMul, gfMul_zero, zero_gfAdd]
      rw [← hdrop, checkPart_scaleFrom, h (i + 1) (by omega), h i (by omega), gfMul_zero, gfAdd_zero]
    have hscaled : ∀ p ∈ scaleFrom n pos ps, p.2 = 0#8 := by
      have hlen : (scaleFrom n pos ps).length = k := (length_scaleFrom n pos ps).trans hk
      exact ih (by rwa [positions_scaleFrom]) (List.forall_mem_map.2 hlt) (hlen ▸ hchecks) hlen
    have hrest : ∀ p ∈ ps, p.2 = 0#8 := fun p hp => by
      have hnode : gfAdd (weight n 1 p.1) (weight n 1 pos) ≠ 0#8 := fun h0 =>
        hpos (weight_one_injective hn (hlt p hp) hposn (gfAdd_eq_zero_iff.1 h0) ▸ List.mem_map_of_mem hp)
      exact (gfMul_eq_zero_iff.1 (hscaled _ (List.mem_map_of_mem hp))).resolve_left hnode
    have hfirst : v = 0#8 := by
      have h0 := h 0 (by omega)
      rwa [checkPart_cons, checkPart_of_values_zero hrest, gfAdd_zero, weight_zero, one_gfMul] at h0
    exact List.forall_mem_cons.2 ⟨hfirst, hrest⟩

/-- The solver never reports Unsolvable on as many checks as free positions (R160). -/
theorem solve_ne_none {n : Nat} (hn : n ≤ Config.nMax) {free : List Nat} (hnodup : free.Nodup)
    (hlt : ∀ j ∈ free, j < n) (fixed : List (Nat × Byte)) : solve n free.length free fixed ≠ none := by
  intro hnone
  obtain ⟨xs, hl, ⟨x, hx, hne⟩, hdot⟩ := solve_none fieldLaws hnone
  have hfst : (free.zip xs).map Prod.fst = free := List.map_fst_zip hl.ge
  have hsnd : (free.zip xs).map Prod.snd = xs := List.map_snd_zip hl.le
  have hzero : ∀ p ∈ free.zip xs, p.2 = 0#8 := by
    refine values_zero_of_checkPart_zero hn (by rwa [hfst]) (fun p hp => hlt _ (List.of_mem_zip hp).1) fun i hi => ?_
    rw [checkPart_zip]
    exact hdot i (hi.trans_le (List.length_zip.trans_le (Nat.min_le_left _ _)))
  rw [← hsnd] at hx
  obtain ⟨p, hp, rfl⟩ := List.mem_map.1 hx
  exact hne (hzero p hp)

end Sys2Proof.Machine
end

section
/-! ### The solver's step from inputs that are ready (42_erasure_fill.md R158 to R164) -/

namespace Sys2Proof.Machine

/-- A written entry of CW reads as the codeword byte at its position. -/
theorem read_eq_codeByte {s : State} {j : Nat} (h : s.cw.written j = true) : s.cw.read j = some (codeByte s j) := by
  obtain ⟨v, hv⟩ := Option.isSome_iff_exists.1 h
  rw [codeByte, hv, Option.getD_some]

/-- The inputs are ready or not by N, KNOWN, the mask below N and whether the fixed bytes below N are written. -/
theorem inputsReady_congr {s s' : State} (hn : s'.n = s.n) (hk : s'.known = s.known)
    (hfm : ∀ j < s.n.toNat, s'.fm.read j = s.fm.read j)
    (hcw : ∀ j < s.n.toNat, isFixed s j = true → s'.cw.read j = s.cw.read j) (h : inputsReady s) :
    inputsReady s' := by
  obtain ⟨hpos, hlt, hmax, hmask, hcount, hwritten⟩ := h
  have hfix : ∀ j < s.n.toNat, isFixed s' j = isFixed s j := fun j hj => by rw [isFixed, isFixed, hfm j hj]
  refine ⟨hk ▸ hpos, hn ▸ hk ▸ hlt, hn ▸ hmax, fun j hj => ?_, ?_, fun j hj hf => ?_⟩
  · rw [hn] at hj
    rw [Memory.written, hfm j hj]
    exact hmask j hj
  · rw [fixedCount, hn, hk, ← hcount, fixedCount, List.filter_congr fun j hj => hfix j (List.mem_range.1 hj)]
  · rw [hn] at hj
    rw [hfix j hj] at hf
    rw [Memory.written, hcw j hj hf]
    exact hwritten j hj hf

/-- The positions below N are the free ones and the fixed ones. -/
theorem mem_free_or_isFixed {s : State} {mask : List Bool} (hm : maskOf s = some mask) {j : Nat}
    (hj : j < s.n.toNat) : j ∈ positions false mask ∨ isFixed s j = true := by
  rw [mem_free_iff hm]
  cases isFixed s j with
  | false => exact .inl ⟨hj, rfl⟩
  | true => exact .inr rfl

/-- The fixed positions and those at N and above are not solved. -/
theorem not_mem_free {s : State} {mask : List Bool} (hm : maskOf s = some mask) {j : Nat}
    (hj : s.n.toNat ≤ j ∨ isFixed s j = true) : j ∉ positions false mask := by
  rw [mem_free_iff hm]
  rintro ⟨hlt, hfree⟩
  exact hj.elim hlt.not_ge fun hfix => Bool.false_ne_true (hfree.symm.trans hfix)

/-- Read back in order, the free positions give the solved values. -/
theorem map_read_writeBack {free : List Nat} {xs : List Byte} (hn : free.Nodup) (hl : xs.length = free.length)
    (s : State) : free.map (writeBack free xs s).cw.read = xs.map some := by
  refine List.ext_getElem (by simp [hl]) fun c hc _ => ?_
  rw [List.getElem_map, List.getElem_map, read_writeBack_free hn hl (by simpa using hc)]

/-- Inputs that are ready have a solution: there are as many checks as free positions (R160). -/
theorem exists_solve_of_inputsReady {s : State} {mask : List Bool} (hr : inputsReady s) (hm : maskOf s = some mask)
    (fixed : List (Nat × Byte)) :
    ∃ xs, solve s.n.toNat (erasureCount s) (positions false mask) fixed = some xs := by
  obtain ⟨mask', -, hm', -, -, -, hl⟩ := inputsReady_readable hr
  obtain rfl : mask' = mask := Option.some.inj (hm'.symm.trans hm)
  obtain ⟨-, -, hmax, -⟩ := hr
  rw [← hl]
  exact Option.ne_none_iff_exists'.1 (solve_ne_none hmax (positions_nodup false mask')
    (fun j hj => ((mem_free_iff hm).1 hj).1) fixed)

/-- The solver's step from inputs that are ready ends in Idle (R160). -/
theorem exists_solverTurn_idle {s : State} (hp : s.phase = .solving) (hr : inputsReady s) :
    ∃ t, solverTurn s = .next t ∧ t.phase = .idle := by
  obtain ⟨mask, bytes, hm, hb, -⟩ := inputsReady_readable hr
  obtain ⟨xs, hx⟩ := exists_solve_of_inputsReady hr hm ((positions true mask).zip bytes)
  refine ⟨writeBack (positions false mask) xs s, ?_, rfl⟩
  simp [solverTurn, hp, solverStep, hm, hb, hx]

section
variable {s t : State} (hp : s.phase = .solving) (ht : solverTurn s = .next t)
include hp ht

theorem solverTurn_of_solving :
    ∃ mask, maskOf s = some mask ∧ ((∃ xs, t = writeBack (positions false mask) xs s) ∨ t = unsolvable s) := by
  rcases solverTurn_next ht with ⟨hne, -⟩ | ⟨-, mask, bytes, hm, -, ⟨xs, -, heq⟩ | ⟨-, heq⟩⟩
  · exact absurd hp hne
  · exact ⟨mask, hm, .inl ⟨xs, heq⟩⟩
  · exact ⟨mask, hm, .inr heq⟩

/-- What both ends of the solver's step leave unchanged (R156, R158). -/
theorem solverTurn_frame :
    t.fm = s.fm ∧ t.n = s.n ∧ t.known = s.known ∧ t.result = s.result ∧ t.overrun = s.overrun ∧
      t.schedule = s.schedule ∧ t.hostReads = s.hostReads := by
  obtain ⟨mask, -, ⟨xs, rfl⟩ | rfl⟩ := solverTurn_of_solving hp ht
  · exact ⟨rfl, rfl, rfl, rfl, rfl, rfl, rfl⟩
  · exact ⟨rfl, rfl, rfl, rfl, rfl, rfl, rfl⟩

theorem solverTurn_keeps_cw {j : Nat} (hj : s.n.toNat ≤ j ∨ isFixed s j = true) : t.cw.read j = s.cw.read j := by
  obtain ⟨mask, hm, ⟨xs, rfl⟩ | rfl⟩ := solverTurn_of_solving hp ht
  · exact read_writeBack_other (not_mem_free hm hj)
  · rfl

/-- The two ends of the solver's step (R156, R158). -/
theorem solverTurn_ends :
    (t.phase = .idle ∧ t.ecode = .ok ∧ t.sticky = s.sticky) ∨
      (t.phase = .fatal ∧ t.ecode = .unsolvable ∧ t.sticky = true ∧ t.cw = s.cw) := by
  obtain ⟨mask, -, ⟨xs, rfl⟩ | rfl⟩ := solverTurn_of_solving hp ht
  · exact .inl ⟨rfl, rfl, rfl⟩
  · exact .inr ⟨rfl, rfl, rfl, rfl⟩

variable (hr : inputsReady s)
include hr

theorem solverTurn_idle : t.phase = .idle := by
  obtain ⟨t', ht', hidle⟩ := exists_solverTurn_idle hp hr
  exact Host.Outcome.next.inj (ht'.symm.trans ht) ▸ hidle

/-- The solver's step completes the codeword (R158). -/
theorem solverTurn_written : ∀ j < s.n.toNat, t.cw.written j = true := by
  obtain ⟨mask, xs, hm, -, hl, heq, -⟩ := solverTurn_solution fieldLaws hp hr ht (solverTurn_idle hp ht hr)
  intro j hj
  rcases mem_free_or_isFixed hm hj with hfree | hfix
  · have hread : t.cw.read j ∈ xs.map some := by
      rw [heq, ← map_read_writeBack (positions_nodup false mask) hl s]
      exact List.mem_map_of_mem hfree
    obtain ⟨v, -, hv⟩ := List.mem_map.1 hread
    exact Option.isSome_of_eq_some hv.symm
  · rw [Memory.written, solverTurn_keeps_cw hp ht (.inr hfix)]
    obtain ⟨-, -, -, -, -, hwritten⟩ := hr
    exact hwritten j hj hfix

theorem solverTurn_read {j : Nat} (hj : j < s.n.toNat) : t.cw.read j = some (codeByte t j) :=
  read_eq_codeByte (solverTurn_written hp ht hr j hj)

/-- Of the words with the fixed bytes, exactly the one CW then holds satisfies the parity checks (R158, R159). -/
theorem parityHolds_iff_read {c : Nat → Byte}
    (hc : ∀ j < s.n.toNat, isFixed s j = true → s.cw.read j = some (c j)) :
    parityHolds s.n.toNat (s.n.toNat - s.known.toNat) c ↔ ∀ j < s.n.toNat, t.cw.read j = some (c j) := by
  obtain ⟨mask, xs, hm, -, hl, heq, hsol⟩ := solverTurn_solution fieldLaws hp hr ht (solverTurn_idle hp ht hr)
  have hread : (positions false mask).map t.cw.read = xs.map some :=
    heq ▸ map_read_writeBack (positions_nodup false mask) hl s
  calc parityHolds s.n.toNat (s.n.toNat - s.known.toNat) c
      ↔ (positions false mask).map c = xs := hsol c hc
    _ ↔ (positions false mask).map t.cw.read = (positions false mask).map (some ∘ c) := by
      rw [hread, ← List.map_map, (List.map_injective_iff.2 (Option.some_injective _)).eq_iff, eq_comm]
    _ ↔ ∀ j ∈ positions false mask, t.cw.read j = some (c j) := List.map_inj_left
    _ ↔ ∀ j < s.n.toNat, t.cw.read j = some (c j) := by
      constructor
      · intro h j hj
        rcases mem_free_or_isFixed hm hj with hfree | hfix
        · exact h j hfree
        · exact (solverTurn_keeps_cw hp ht (.inr hfix)).trans (hc j hj hfix)
      · exact fun h j hj => h j ((mem_free_iff hm).1 hj).1

theorem solverTurn_parityHolds : parityHolds s.n.toNat (s.n.toNat - s.known.toNat) (codeByte t) :=
  (parityHolds_iff_read hp ht hr fun _ hj hfix =>
    (solverTurn_keeps_cw hp ht (.inr hfix)).symm.trans (solverTurn_read hp ht hr hj)).2
    fun _ hj => solverTurn_read hp ht hr hj

/-- Whatever mask, fixed bytes taken from the codeword that one step left lead to that codeword again: it satisfies the
second step's checks too (R162, R164). -/
theorem solverTurn_same_codeword {u v : State} (hpu : u.phase = .solving) (hv : solverTurn u = .next v)
    (hru : inputsReady u) (hn : u.n = s.n) (hk : u.known = s.known)
    (hfixed : ∀ j < s.n.toNat, isFixed u j = true → u.cw.read j = t.cw.read j) :
    ∀ j < s.n.toNat, v.cw.read j = t.cw.read j := by
  have hread : ∀ j < s.n.toNat, t.cw.read j = some (codeByte t j) := fun _ hj => solverTurn_read hp ht hr hj
  have hpar := solverTurn_parityHolds hp ht hr
  rw [← hn] at hread hfixed hpar ⊢
  rw [← hk] at hpar
  have hsame := (parityHolds_iff_read hpu hv hru fun j hj hfix => (hfixed j hj hfix).trans (hread j hj)).1 hpar
  exact fun j hj => (hsame j hj).trans (hread j hj).symm

end

end Sys2Proof.Machine
end

section
/-! ### The settled statements: the solver's step (42_erasure_fill.md) -/

namespace Sys2Proof.Machine

/-- Settles O24: the weights of the free positions are independent. -/
theorem unsolvableIsUnreachable : Obligations.UnsolvableIsUnreachable := fun _ hp hr => exists_solverTurn_idle hp hr

/-- Settles O25: the codeword left is written below N, and is the one that satisfies the checks. -/
theorem solvedCodewordSatisfiesParity : Obligations.SolvedCodewordSatisfiesParity := fun _ _ hp hr ht _ =>
  ⟨solverTurn_written hp ht hr, solverTurn_parityHolds hp ht hr⟩

/-- Settles O26: of the words with the fixed bytes, only the codeword left satisfies the checks. -/
theorem solvedCodewordIsUnique : Obligations.SolvedCodewordIsUnique := fun _ _ _ hp hr ht _ hc hpar =>
  (parityHolds_iff_read hp ht hr hc).1 hpar

/-- Settles O28: the second step takes its fixed bytes from the codeword the first left. -/
theorem resolvingIsStable : Obligations.ResolvingIsStable := by
  intro s t u v hp hr ht _ hpu hn hk hcw hru hv _
  obtain ⟨-, htn, htk, -⟩ := solverTurn_frame hp ht
  exact solverTurn_same_codeword hp ht hr hpu hv hru (hn.trans htn) (hk.trans htk) fun j _ _ => by rw [hcw]

/-- Settles O23: the frame of the step, and its two ends. -/
theorem solverStepEnds : Obligations.SolverStepEnds := by
  intro s t hp ht
  obtain ⟨hfm, hn, hk, hresult, hoverrun, hsched, hreads⟩ := solverTurn_frame hp ht
  exact ⟨hfm, hn, hk, hresult, hoverrun, hsched, hreads, fun j hj => solverTurn_keeps_cw hp ht hj,
    fun hr _ j hj _ => solverTurn_written hp ht hr j hj, solverTurn_ends hp ht⟩

/-- Settles O27: the two states have the same fixed bytes, and one step's codeword keeps them. -/
theorem freeBytesAreNotInputs : Obligations.FreeBytesAreNotInputs := by
  intro s s' t t' hp hp' hn hk hfm hcw hr ht ht'
  have hr' : inputsReady s' := inputsReady_congr hn hk hfm hcw hr
  refine ⟨(solverTurn_idle hp' ht' hr').trans (solverTurn_idle hp ht hr).symm, fun _ => ?_⟩
  refine solverTurn_same_codeword hp ht hr hp' ht' hr' hn hk fun j hj hfix => ?_
  rw [isFixed, hfm j hj] at hfix
  exact (hcw j hj hfix).trans (solverTurn_keeps_cw hp ht (.inr hfix)).symm

end Sys2Proof.Machine
end

section
/-! ### ERASE_FILL's acceptance (42_erasure_fill.md R150), and what holds while Solving (R161) -/

namespace Sys2Proof.Machine

theorem exec_eraseFill_of_idle {s : State} (hp : s.phase = .idle) : exec .eraseFill s = startErase s :=
  accept_of_idle hp startErase

theorem maskOf_eq_none {s : State} : maskOf s = none ↔ ¬ maskWritten s := by
  rw [← maskOf_isSome, Option.not_isSome_iff_eq_none]

theorem fixedBytes_eq_none {s : State} {mask : List Bool} (hm : maskOf s = some mask) :
    fixedBytes mask s = none ↔ ¬ fixedWritten s := by
  rw [← fixedBytes_isSome hm, Option.not_isSome_iff_eq_none]

/-! #### The checks of R150, one by one -/

section
variable {s : State}

theorem startErase_of_n_out_of_range (h : s.n.toNat = 0 ∨ Config.nMax < s.n.toNat) :
    startErase s = .next (raise .invalidArgument s) := if_pos h

theorem startErase_of_known_out_of_range (hn : 0 < s.n.toNat) (hmax : s.n.toNat ≤ Config.nMax)
    (hk : s.known.toNat = 0 ∨ s.n.toNat ≤ s.known.toNat) :
    startErase s = .next (raise .invalidArgument s) := by
  rw [startErase, if_neg (by omega)]
  rcases Nat.eq_zero_or_pos s.known.toNat with h0 | hpos
  · rw [if_pos h0]
  · rw [if_neg (by omega), if_pos (hk.resolve_left (by omega))]

variable (hpos : 0 < s.known.toNat) (hlt : s.known.toNat < s.n.toNat) (hmax : s.n.toNat ≤ Config.nMax)
include hpos hlt hmax

theorem startErase_of_lengths_in_range :
    startErase s = withEntry (maskOf s) fun mask =>
      if mask.count true = s.known.toNat then withEntry (fixedBytes mask s) fun _ => .next (beginSolve s)
      else .next (raise .invalidArgument s) := by
  rw [startErase, if_neg (by omega), if_neg (by omega), if_neg (by omega)]

theorem startErase_of_mask_unwritten (hw : ¬ maskWritten s) : startErase s = .fault .unwrittenRead := by
  rw [startErase_of_lengths_in_range hpos hlt hmax, maskOf_eq_none.2 hw, withEntry_none]

theorem startErase_of_count_ne (hw : maskWritten s) (hc : fixedCount s ≠ s.known.toNat) :
    startErase s = .next (raise .invalidArgument s) := by
  obtain ⟨mask, hm⟩ := Option.isSome_iff_exists.1 (maskOf_isSome.2 hw)
  rw [fixedCount_eq_count hm] at hc
  rw [startErase_of_lengths_in_range hpos hlt hmax, hm, withEntry_some, if_neg hc]

theorem startErase_of_count_eq {mask : List Bool} (hm : maskOf s = some mask) (hc : fixedCount s = s.known.toNat) :
    startErase s = withEntry (fixedBytes mask s) fun _ => .next (beginSolve s) := by
  rw [fixedCount_eq_count hm] at hc
  rw [startErase_of_lengths_in_range hpos hlt hmax, hm, withEntry_some, if_pos hc]

theorem startErase_of_fixed_unwritten (hw : maskWritten s) (hc : fixedCount s = s.known.toNat)
    (hf : ¬ fixedWritten s) : startErase s = .fault .unwrittenRead := by
  obtain ⟨mask, hm⟩ := Option.isSome_iff_exists.1 (maskOf_isSome.2 hw)
  rw [startErase_of_count_eq hpos hlt hmax hm hc, (fixedBytes_eq_none hm).2 hf, withEntry_none]

end

theorem startErase_of_inputsReady {s : State} (h : inputsReady s) : startErase s = .next (beginSolve s) := by
  obtain ⟨mask, bytes, hm, hb, -⟩ := inputsReady_readable h
  obtain ⟨hpos, hlt, hmax, -, hc, -⟩ := h
  rw [startErase_of_count_eq hpos hlt hmax hm hc, hb, withEntry_some]

/-- A command that leads from Idle to Solving has found its inputs ready. -/
theorem Effect.inputsReady_of_solving {s t : State} {i : Instr} (h : Effect s i t) (hp : s.phase = .idle)
    (ht : t.phase = .solving) : inputsReady t := by
  cases h with
  | eraseFill mask bytes hn hk hm hc hb =>
    obtain ⟨-, hmax⟩ := hn
    obtain ⟨hpos, hlt⟩ := hk
    exact ⟨hpos, hlt, hmax, maskOf_isSome.1 (Option.isSome_of_eq_some hm), (fixedCount_eq_count hm).trans hc,
      (fixedBytes_isSome hm).1 (Option.isSome_of_eq_some hb)⟩
  | _ => exact Phase.noConfusion (hp.symm.trans ht)

/-! #### STATUS with neither a sticky flag nor an outcome other than OK (R28, R150) -/

theorem statusWord_of_solving {s : State} (ho : s.overrun = false) (hs : s.sticky = false) (he : s.ecode = .ok)
    (hp : s.phase = .solving) : statusWord s = 0x00000001#32 := by
  simp [statusWord, busy, fatal, OutcomeCode.bits, ho, hs, he, hp]

theorem statusWord_of_idle {s : State} (ho : s.overrun = false) (hs : s.sticky = false) (he : s.ecode = .ok)
    (hp : s.phase = .idle) : statusWord s = 0x00000000#32 := by
  simp [statusWord, busy, fatal, OutcomeCode.bits, ho, hs, he, hp]

/-! #### While Solving (R161) -/

section
variable {s t : State} {e : Event}

theorem EventEffect.frozen_of_solving (h : EventEffect s e t) (hp : s.phase = .solving) (hsolver : e ≠ .solver)
    (hreset : e ≠ .reset) :
    t.phase = .solving ∧ t.n = s.n ∧ t.known = s.known ∧ t.fm = s.fm ∧ t.cw = s.cw ∧ t.result = s.result ∧
      t.ecode = s.ecode ∧ t.sticky = s.sticky := by
  cases h with
  | read | writeIgnored | dropped => exact ⟨hp, rfl, rfl, rfl, rfl, rfl, rfl, rfl⟩
  | ignored _ hf => exact Phase.noConfusion (hp.symm.trans hf)
  | illegal _ _ hi | command _ _ hi => exact Phase.noConfusion (hp.symm.trans hi)
  | reset => exact absurd rfl hreset
  | solverWaits | solved | unsolvable => exact absurd rfl hsolver

theorem EventEffect.keeps_solvingReady (h : EventEffect s e t) (hs : solvingReady s) : solvingReady t := by
  intro ht
  cases h with
  | command i t hp hd he => exact he.inputsReady_of_solving hp ht
  | reset | solved | unsolvable => cases ht
  | _ => exact hs ht

theorem EventEffect.phase_ne_fatal (h : EventEffect s e t) (hs : solvingReady s) (hp : s.phase ≠ .fatal) :
    t.phase ≠ .fatal := by
  cases h with
  | command i t hi hd he =>
    rcases he.phase_moves with heq | ⟨-, heq⟩
    · exact heq ▸ hp
    · exact heq ▸ Phase.noConfusion
  | unsolvable mask bytes hp hm hb hx =>
    obtain ⟨xs, hsome⟩ := exists_solve_of_inputsReady (hs hp) hm ((positions true mask).zip bytes)
    cases hx.symm.trans hsome
  | reset | solved => exact Phase.noConfusion
  | _ => exact hp

end

end Sys2Proof.Machine
end

section
/-! ### The settled statements: acceptance and the phase Solving (42_erasure_fill.md) -/

namespace Sys2Proof.Machine

/-- Settles O57: the commands, the reads and the ignored writes of a Solving state keep its inputs, and only an accepted
ERASE_FILL leads into Solving. -/
theorem stepsKeepSolvingInputsReady : Obligations.StepsKeepSolvingInputsReady := by
  intro s t hs h
  obtain ⟨e, rest, -, he⟩ := step_effect h
  exact he.keeps_solvingReady hs

/-- Settles O58: the one event that leads to Fatal is the solver's step, which has a solution. -/
theorem stepsNeverReachFatal : Obligations.StepsNeverReachFatal := by
  intro s t hs hp h
  obtain ⟨e, rest, -, he⟩ := step_effect h
  exact he.phase_ne_fatal hs hp

/-- Settles O29: every other event of a Solving state is a read, an ignored write or a dropped command. -/
theorem inputsAreFrozenWhileSolving : Obligations.InputsAreFrozenWhileSolving := by
  rintro s t hp h ⟨e, rest, hs, hsolver, hreset⟩
  rw [step_of_cons hs] at h
  exact (runEvent_effect h).frozen_of_solving hp hsolver hreset

/-- Settles O21: every check of R150 passes. -/
theorem eraseFillIsAccepted : Obligations.EraseFillIsAccepted := fun _ hp hr =>
  (exec_eraseFill_of_idle hp).trans (startErase_of_inputsReady hr)

/-- Settles O22: the checks of R150 in their order, and STATUS from its fields. -/
theorem eraseFillChecksInOrder : Obligations.EraseFillChecksInOrder := by
  refine ⟨fun s hp => ?_, rfl, fun s ho hs => ?_, fun s t hp ho hs h ht => ?_, fun s t hp ho hs h ht => ?_⟩
  · rw [exec_eraseFill_of_idle hp]
    exact ⟨startErase_of_n_out_of_range, fun hn hmax =>
      ⟨fun hk => startErase_of_known_out_of_range hn hmax (.inl hk),
        fun _ hk => startErase_of_known_out_of_range hn hmax (.inr hk),
        fun hpos hlt =>
          ⟨startErase_of_mask_unwritten hpos hlt hmax, startErase_of_count_ne hpos hlt hmax,
            startErase_of_fixed_unwritten hpos hlt hmax,
            fun hw hc hf => startErase_of_inputsReady ⟨hpos, hlt, hmax, hw, hc, hf⟩⟩⟩⟩
  · exact ⟨statusWord_of_solving ho hs rfl rfl, statusWord_of_idle ho hs rfl rfl⟩
  · rw [exec_eraseFill_of_idle hp] at h
    cases startErase_next h with
    | eraseFill => exact statusWord_of_solving ho hs rfl rfl
    | raised => exact Phase.noConfusion (hp.symm.trans ht)
  · rcases solverTurn_ends hp h with ⟨-, hok, hsticky⟩ | ⟨hfatal, -⟩
    · obtain ⟨-, -, -, -, hoverrun, -⟩ := solverTurn_frame hp h
      exact statusWord_of_idle (hoverrun.trans ho) (hsticky.trans hs) hok ht
    · exact Phase.noConfusion (hfatal.symm.trans ht)

end Sys2Proof.Machine
end

section
/-! ### The control commands and the step (43_control_ops.md R180 to R182) -/

namespace Sys2Proof.Machine

theorem exec_nop_of_idle {s : State} (hs : s.phase = .idle) : exec .nop s = .next (complete s) :=
  accept_of_idle hs fun s => .next (complete s)

theorem exec_clrStatus_of_idle {s : State} (hs : s.phase = .idle) :
    exec .clrStatus s = .next (complete (clearSticky s)) :=
  accept_of_idle hs fun s => .next (complete (clearSticky s))

/-- A row with no operand field is selected by its own word only. -/
theorem command_of_illegal_fixed_word {w : Word} {i : Instr} {s : State} (hs : s.phase = .idle)
    (hmask : i.rowMask = BitVec.allOnes 32) (hop : w.toNat / 2 ^ 28 = i.rowMatch.toNat / 2 ^ 28)
    (hne : w ≠ i.rowMatch) : command w s = .next { s with ecode := .illegalCommand, sticky := true } := by
  obtain ⟨hraise, -, hrow⟩ := illegalWordsRaise
  refine hraise w s hs (hrow w i hop ?_)
  rwa [hmask, BitVec.and_allOnes]

theorem statusWord_of_idle_sticky {s : State} (ho : s.overrun = false) (hs : s.sticky = true) (he : s.ecode = .ok)
    (hp : s.phase = .idle) : statusWord s = 0x00000008#32 := by
  simp [statusWord, busy, fatal, OutcomeCode.bits, ho, hs, he, hp]

theorem tableWord_toNat (w : Word) : tableWord 32 w.toNat = w := by
  rw [tableWord, Nat.mod_eq_of_lt w.isLt, BitVec.ofNat_toNat, BitVec.setWidth_eq]

theorem step_of_decode {s : State} {w : Word} {i : Instr} {rest : List Event} (hs : s.schedule = cmdWrite w :: rest)
    (hd : decode w = .ok i) : step s = exec i (popEvent rest s) :=
  (step_of_cmdWrite hs).trans (command_of_decode hd _)

theorem withFetchWord_schedule (s : State) (w : Word) :
    (s.withFetchWord 32 w.toNat).schedule = cmdWrite w :: s.schedule := by
  rw [State.withFetchWord, tableWord_toNat]

theorem popEvent_withFetchWord (s : State) (nbits w : Nat) : popEvent s.schedule (s.withFetchWord nbits w) = s := rfl

end Sys2Proof.Machine
end

section
/-! ### The settled statements: the control commands and the step (43_control_ops.md) -/

namespace Sys2Proof.Machine

/-- Settles O30: NOP completes and does nothing else, so STATUS shows STICKY alone. -/
theorem nopResult : Obligations.NopResult :=
  ⟨fun _ hs => exec_nop_of_idle hs, fun _ hs => exec_of_solving .nop hs, fun _ hs => exec_of_fatal .nop hs, rfl,
    fun _ _ hs hop hne => command_of_illegal_fixed_word (i := .nop) hs rfl hop hne,
    fun _ hs ho hsticky => statusWord_of_idle_sticky ho hsticky rfl hs⟩

/-- Settles O31: no flag of STATUS and no outcome is left in phase Idle. -/
theorem clrStatusResult : Obligations.ClrStatusResult :=
  ⟨fun _ hs => exec_clrStatus_of_idle hs, fun _ hs => exec_of_solving .clrStatus hs,
    fun _ hs => exec_of_fatal .clrStatus hs, rfl,
    fun _ _ hs hop hne => command_of_illegal_fixed_word (i := .clrStatus) hs rfl hop hne,
    fun _ hs => statusWord_of_idle rfl rfl rfl hs⟩

/-- Settles O35: a step takes the next event off the schedule, and `withFetchWord` puts a write to CMD there. -/
theorem stepRunsDecodedInstruction : Obligations.StepRunsDecodedInstruction := by
  refine ⟨fun w i rest s hs hd => step_of_decode hs hd, fun w i s hd => ?_, fun e rest s hs => step_of_cons hs,
    fun _ _ _ => rfl, fun _ _ _ _ => rfl, fun _ => rfl⟩
  rw [step_of_decode (withFetchWord_schedule s w) hd, popEvent_withFetchWord]

end Sys2Proof.Machine
end

section
/-! ### The outcome of a command that runs (60_exceptions.md R200 to R206) -/

namespace Sys2Proof.Machine

/-- ERASE_FILL's entry on R202's list: one of the checks of R150 fails. -/
abbrev EraseRefused (s : State) : Prop :=
  s.n.toNat = 0 ∨ Config.nMax < s.n.toNat ∨ s.known.toNat = 0 ∨ s.n.toNat ≤ s.known.toNat ∨
    fixedCount s ≠ s.known.toNat

/-- The outcome of a command that runs in phase Idle: the lists of R202 to R204, and OK off them. -/
def outcomeOf (s : State) : Instr → OutcomeCode
  | .gfDiv _ b => if b = 0#8 then .divisionByZero else .ok
  | .gfLog v => if v = 0#8 then .fieldDomainError else .ok
  | .cwWr addr _ | .cwRd addr | .fmWr addr _ | .fmRd addr =>
    if Config.nMax ≤ addr.toNat then .invalidArgument else .ok
  | .eraseFill => if EraseRefused s then .invalidArgument else .ok
  | .nop | .gfAdd .. | .gfMul .. | .gfExp _ | .setLen .. | .clrStatus => .ok

theorem ecode_of_accept_withIndex {addr : Byte} {s t : State} {run : Nat → State → Result} (hp : s.phase = .idle)
    (h : accept s (fun s => withIndex addr s run) = .next t)
    (hrun : run addr.toNat s = .next t → t.ecode = .ok) :
    t.ecode = if Config.nMax ≤ addr.toNat then .invalidArgument else .ok := by
  rw [accept_of_idle hp] at h
  rcases withIndex_next h with ⟨hge, rfl⟩ | ⟨hlt, h⟩
  · rw [if_pos hge, raise_ecode]
  · rw [if_neg hlt.not_ge, hrun h]

theorem ecode_of_startErase {s t : State} (h : startErase s = .next t) :
    t.ecode = if EraseRefused s then .invalidArgument else .ok := by
  unfold startErase at h
  split_ifs at h with hn hk hle
  · cases h
    exact (if_pos (hn.imp_right .inl)).symm
  · cases h
    exact (if_pos (.inr (.inr (.inl hk)))).symm
  · cases h
    exact (if_pos (.inr (.inr (.inr (.inl hle))))).symm
  · obtain ⟨mask, hm, h⟩ := withEntry_next h
    rw [← fixedCount_eq_count hm] at h
    split_ifs at h with hc
    · obtain ⟨bytes, -, h⟩ := withEntry_next h
      cases h
      exact (if_neg fun hr => by omega).symm
    · cases h
      exact (if_pos (.inr (.inr (.inr (.inr hc))))).symm

/-- The outcome code of every command that answers a next state in phase Idle. -/
theorem ecode_of_exec {i : Instr} {s t : State} (hp : s.phase = .idle) (h : exec i s = .next t) :
    t.ecode = outcomeOf s i := by
  cases i with
  | nop | gfAdd | gfMul | gfExp | setLen | clrStatus =>
    cases (accept_of_idle hp fun s => _).symm.trans h
    rfl
  | gfDiv a b =>
    by_cases hb : b = 0#8
    · subst hb
      cases (accept_answer_of_error hp (gfDiv_zero a)).symm.trans h
      rfl
    · cases (accept_answer_of_ok hp (gfDiv_of_ne a hb)).symm.trans h
      exact (if_neg hb).symm
  | gfLog v =>
    by_cases hv : v = 0#8
    · subst hv
      cases (accept_answer_of_error hp gfLog_zero).symm.trans h
      rfl
    · cases (accept_answer_of_ok hp (gfLog_of_ne hv)).symm.trans h
      exact (if_neg hv).symm
  | cwWr | fmWr =>
    refine ecode_of_accept_withIndex hp h fun h => ?_
    cases h
    rfl
  | cwRd | fmRd =>
    refine ecode_of_accept_withIndex hp h fun h => ?_
    obtain ⟨v, -, h⟩ := withEntry_next h
    cases h
    rfl
  | eraseFill => exact ecode_of_startErase ((exec_eraseFill_of_idle hp).symm.trans h)

/-- One entry of `outcomeOf`, asked for another outcome than OK. -/
theorem ite_ok_eq_iff {p : Prop} [Decidable p] {c d : OutcomeCode} (hd : .ok ≠ d) :
    (if p then c else .ok) = d ↔ p ∧ c = d := by
  by_cases hp : p <;> simp [hp, hd]

theorem outcomeOf_eq_invalidArgument_iff {s : State} {i : Instr} :
    outcomeOf s i = .invalidArgument ↔
      (∃ addr d, i = .cwWr addr d ∧ Config.nMax ≤ addr.toNat) ∨ (∃ addr, i = .cwRd addr ∧ Config.nMax ≤ addr.toNat) ∨
      (∃ addr f, i = .fmWr addr f ∧ Config.nMax ≤ addr.toNat) ∨ (∃ addr, i = .fmRd addr ∧ Config.nMax ≤ addr.toNat) ∨
      (i = .eraseFill ∧ EraseRefused s) := by
  cases i <;> simp [outcomeOf, ite_ok_eq_iff, -ite_eq_left_iff]

theorem outcomeOf_eq_divisionByZero_iff {s : State} {i : Instr} :
    outcomeOf s i = .divisionByZero ↔ ∃ a, i = .gfDiv a 0#8 := by
  cases i <;> simp [outcomeOf, ite_ok_eq_iff]

theorem outcomeOf_eq_fieldDomainError_iff {s : State} {i : Instr} :
    outcomeOf s i = .fieldDomainError ↔ i = .gfLog 0#8 := by
  cases i <;> simp [outcomeOf, ite_ok_eq_iff]

theorem outcomeOf_ne_unsolvable_illegalCommand (s : State) (i : Instr) :
    outcomeOf s i ≠ .unsolvable ∧ outcomeOf s i ≠ .illegalCommand := by
  cases i <;> simp [outcomeOf, ite_ok_eq_iff]

/-- R200: a command that does not end in OK has raised its outcome. -/
theorem Effect.eq_raise {i : Instr} {s t : State} (h : Effect s i t) (hc : t.ecode ≠ .ok) : t = raise t.ecode s := by
  cases h with
  | raised => rfl
  | _ => exact absurd rfl hc

theorem eq_raise_of_command {w : Word} {s t : State} (hp : s.phase = .idle) (h : command w s = .next t)
    (hc : t.ecode ≠ .ok) : t = raise t.ecode s := by
  rcases command_next h with ⟨hf, -⟩ | ⟨hs, -⟩ | ⟨-, ⟨i, -, he⟩ | ⟨-, rfl⟩⟩
  · exact Phase.noConfusion (hp.symm.trans hf)
  · exact Phase.noConfusion (hp.symm.trans hs)
  · exact he.eq_raise hc
  · rfl

theorem effect_of_idle {i : Instr} {s t : State} (hp : s.phase = .idle) (h : exec i s = .next t) : Effect s i t := by
  rcases exec_next h with ⟨hf, -⟩ | ⟨hs, -⟩ | ⟨-, he⟩
  · exact Phase.noConfusion (hp.symm.trans hf)
  · exact Phase.noConfusion (hp.symm.trans hs)
  · exact he

/-! #### The field operations (40_field_ops.md section 2) -/

/-- The field operations that have a value for all operands. -/
def TotalFieldOp (i : Instr) : Prop := (∃ a b, i = .gfAdd a b) ∨ (∃ a b, i = .gfMul a b) ∨ ∃ e, i = .gfExp e

/-- The five field operations. -/
def FieldOp (i : Instr) : Prop :=
  (∃ a b, i = .gfAdd a b) ∨ (∃ a b, i = .gfMul a b) ∨ (∃ e, i = .gfExp e) ∨ (∃ a b, i = .gfDiv a b) ∨
    ∃ v, i = .gfLog v

theorem outcomeOf_totalFieldOp {s : State} {i : Instr} (hi : TotalFieldOp i) : outcomeOf s i = .ok := by
  rcases hi with ⟨a, b, rfl⟩ | ⟨a, b, rfl⟩ | ⟨e, rfl⟩ <;> rfl

/-- A field operation completes with a RESULT or raises. -/
theorem Effect.of_fieldOp {i : Instr} {s t : State} (h : Effect s i t) (hi : FieldOp i) :
    (∃ v, t = complete { s with result := v }) ∨ ∃ c, c ≠ .ok ∧ t = raise c s := by
  cases h with
  | raised i c hc => exact .inr ⟨c, hc, rfl⟩
  | gfAdd | gfMul | gfDiv | gfExp | gfLog => exact .inl ⟨_, rfl⟩
  | _ => simp [FieldOp] at hi

/-! #### Words written outside phase Idle (R207, R208) -/

theorem command_of_decode_error {w : Word} {e : DecodeError} (h : decode w = .error e) (s : State) :
    command w s = illegalCommand s := by
  simp only [command, h]

/-- A write to CMD begins with R182's acceptance, whatever the word. -/
theorem command_eq_accept (w : Word) : ∃ run : State → Result, ∀ s, command w s = accept s run := by
  cases hd : decode w with
  | ok i =>
    obtain ⟨run, hr⟩ := exec_eq_accept i
    exact ⟨run, fun s => (command_of_decode hd s).trans (hr s)⟩
  | error e => exact ⟨_, command_of_decode_error hd⟩

theorem command_of_solving (w : Word) {s : State} (h : s.phase = .solving) : command w s = .next (drop s) := by
  obtain ⟨run, hr⟩ := command_eq_accept w
  rw [hr, accept_of_solving h]

theorem command_of_fatal (w : Word) {s : State} (h : s.phase = .fatal) : command w s = .next s := by
  obtain ⟨run, hr⟩ := command_eq_accept w
  rw [hr, accept_of_fatal h]

/-- Only the solver leads to phase Fatal, and nothing but reset acts there. -/
theorem EventEffect.ecode_of_fatal {s t : State} {e : Event} (h : EventEffect s e t)
    (hs : s.phase = .fatal → s.ecode = .unsolvable) (ht : t.phase = .fatal) : t.ecode = .unsolvable := by
  cases h with
  | illegal w err hp => exact Phase.noConfusion (hp.symm.trans ht)
  | command i t hp hd he =>
    rcases he.phase_moves with heq | ⟨-, heq⟩
    · exact Phase.noConfusion ((heq.trans hp).symm.trans ht)
    · exact Phase.noConfusion (heq.symm.trans ht)
  | unsolvable => rfl
  | reset | solved => cases ht
  | _ => exact hs ht

end Sys2Proof.Machine
end

section
/-! ### What a step can stop in (60_exceptions.md R210) -/

namespace Sys2Proof.Machine

/-- `r` is a next state, or else `p` holds and `r` is the fault UnwrittenRead. -/
def AnswersUnless (p : Prop) (r : Result) : Prop := (∃ t, r = .next t) ∨ p ∧ r = .fault .unwrittenRead

section
variable {p q : Prop} {r : Result}

theorem AnswersUnless.next (s : State) : AnswersUnless p (.next s) := .inl ⟨s, rfl⟩

theorem AnswersUnless.mono (h : AnswersUnless p r) (hpq : p → q) : AnswersUnless q r :=
  h.imp_right (And.imp_left hpq)

theorem AnswersUnless.ne_refused (h : AnswersUnless p r) (x : Refusal) : r ≠ .refused x := by
  rcases h with ⟨t, rfl⟩ | ⟨-, rfl⟩ <;> exact nofun

theorem AnswersUnless.reason_of_fault {f : Fault} (h : AnswersUnless p r) (hr : r = .fault f) :
    f = .unwrittenRead ∧ p := by
  rcases h with ⟨t, rfl⟩ | ⟨hp, rfl⟩ <;> cases hr
  exact ⟨rfl, hp⟩

theorem accept_answersUnless {s : State} {run : State → Result} (h : s.phase = .idle → AnswersUnless p (run s)) :
    AnswersUnless p (accept s run) := by
  cases hp : s.phase with
  | idle => rw [accept_of_idle hp]; exact h hp
  | solving => rw [accept_of_solving hp]; exact .next _
  | fatal => rw [accept_of_fatal hp]; exact .next _

theorem answer_answersUnless (v : Except OutcomeCode Byte) (s : State) : AnswersUnless p (answer v s) := by
  cases v <;> exact .next _

theorem accept_withIndex_answersUnless {addr : Byte} {s : State} {run : Nat → State → Result}
    (h : s.phase = .idle → AnswersUnless p (run addr.toNat s)) :
    AnswersUnless p (accept s fun s => withIndex addr s run) := by
  refine accept_answersUnless fun hp => ?_
  rcases Nat.lt_or_ge addr.toNat Config.nMax with hlt | hge
  · rw [withIndex_of_lt hlt]
    exact h hp
  · rw [withIndex_of_ge hge]
    exact .next _

theorem withEntry_answersUnless {α : Type} {o : Option α} {run : α → Result} (hp : p)
    (h : ∀ v, AnswersUnless p (run v)) : AnswersUnless p (withEntry o run) := by
  cases o with
  | none => exact .inr ⟨hp, rfl⟩
  | some v => exact h v

end

/-- The commands that read a buffer entry (R210). -/
def ReadsBuffer (i : Instr) : Prop := (∃ a, i = .cwRd a) ∨ (∃ a, i = .fmRd a) ∨ i = .eraseFill

theorem startErase_answersUnless (s : State) : AnswersUnless True (startErase s) := by
  unfold startErase
  split_ifs
  · exact .next _
  · exact .next _
  · exact .next _
  · refine withEntry_answersUnless trivial fun mask => ?_
    split_ifs
    · exact withEntry_answersUnless trivial fun _ => .next _
    · exact .next _

theorem exec_answersUnless (i : Instr) (s : State) : AnswersUnless (s.phase = .idle ∧ ReadsBuffer i) (exec i s) := by
  cases i with
  | nop | setLen | clrStatus => exact accept_answersUnless (run := fun s => _) fun _ => .next _
  | gfAdd | gfMul | gfDiv | gfExp | gfLog => exact accept_answersUnless fun _ => answer_answersUnless _ s
  | cwWr | fmWr => exact accept_withIndex_answersUnless fun _ => .next _
  | cwRd addr =>
    exact accept_withIndex_answersUnless fun hp =>
      withEntry_answersUnless ⟨hp, .inl ⟨addr, rfl⟩⟩ fun _ => answer_answersUnless _ s
  | fmRd addr =>
    exact accept_withIndex_answersUnless fun hp =>
      withEntry_answersUnless ⟨hp, .inr (.inl ⟨addr, rfl⟩)⟩ fun _ => answer_answersUnless _ s
  | eraseFill =>
    exact accept_answersUnless fun hp => (startErase_answersUnless s).mono fun _ => ⟨hp, .inr (.inr rfl)⟩

theorem command_answersUnless (w : Word) (s : State) :
    AnswersUnless (∃ i, s.phase = .idle ∧ decode w = .ok i ∧ ReadsBuffer i) (command w s) := by
  cases hd : decode w with
  | ok i =>
    rw [command_of_decode hd]
    exact (exec_answersUnless i s).mono fun ⟨hp, hi⟩ => ⟨i, hp, rfl, hi⟩
  | error e =>
    rw [command_of_decode_error hd]
    exact accept_answersUnless fun _ => .next _

theorem solverTurn_answersUnless (s : State) : AnswersUnless (s.phase = .solving) (solverTurn s) := by
  unfold solverTurn
  split_ifs with hp
  · refine withEntry_answersUnless hp fun mask => withEntry_answersUnless hp fun bytes => ?_
    split <;> exact .next _
  · exact .next s

/-! #### Events and steps -/

/-- The event reads buffer entries: the solver's step does, and a command that reads one (R210). -/
def Event.ReadsBuffers (e : Event) (s : State) : Prop :=
  s.phase = .solving ∧ e = .solver ∨ ∃ w i, s.phase = .idle ∧ e = cmdWrite w ∧ decode w = .ok i ∧ ReadsBuffer i

theorem runEvent_of_not_allowed {e : Event} (h : e.allowed = false) (s : State) :
    runEvent e s = .fault .refusedAccess := by
  cases e with
  | read size addr => exact hostRead_of_none (Option.not_isSome_iff_eq_none.1 (Bool.eq_false_iff.1 h)) s
  | write size addr w => exact hostWrite_of_none (Option.not_isSome_iff_eq_none.1 (Bool.eq_false_iff.1 h)) w s
  | reset | solver => cases h

theorem hostWrite_answersUnless {size : Nat} {addr : BusAddr} {r : Reg} (hr : registerAt size addr = some r)
    (w : Word) (s : State) :
    AnswersUnless (Event.ReadsBuffers (.write size addr w) s) (hostWrite size addr w s) := by
  by_cases hcmd : r = .cmd
  · subst hcmd
    obtain ⟨rfl, rfl⟩ := registerAt_eq_cmd hr
    exact (command_answersUnless w s).mono fun ⟨i, hp, hd, hi⟩ => .inr ⟨w, i, hp, rfl, hd, hi⟩
  · rw [hostWrite_of_ne_cmd hr hcmd]
    exact .next s

theorem runEvent_answersUnless {e : Event} (h : e.allowed = true) (s : State) :
    AnswersUnless (e.ReadsBuffers s) (runEvent e s) := by
  cases e with
  | read size addr =>
    obtain ⟨r, hr⟩ := Option.isSome_iff_exists.1 h
    exact .inl ⟨_, hostRead_of_register hr s⟩
  | write size addr w =>
    obtain ⟨r, hr⟩ := Option.isSome_iff_exists.1 h
    exact hostWrite_answersUnless hr w s
  | reset => exact .next _
  | solver => exact (solverTurn_answersUnless s).mono fun hp => .inl ⟨hp, rfl⟩

/-- The next event is an access that is not allowed. -/
def RefusedNext (s : State) : Prop := ∃ e rest, s.schedule = e :: rest ∧ e.allowed = false

/-- The next event, or the solver's turn that comes of itself, reads buffer entries. -/
def ReadsNext (s : State) : Prop :=
  (s.phase = .solving ∧ (s.schedule = [] ∨ ∃ rest, s.schedule = .solver :: rest)) ∨
    ∃ w rest i, s.phase = .idle ∧ s.schedule = cmdWrite w :: rest ∧ decode w = .ok i ∧ ReadsBuffer i

theorem step_of_refusedNext {s : State} (h : RefusedNext s) : step s = .fault .refusedAccess := by
  obtain ⟨e, rest, hs, he⟩ := h
  rw [step_of_cons hs, runEvent_of_not_allowed he]

theorem step_answersUnless {s : State} (h : ¬ RefusedNext s) : AnswersUnless (ReadsNext s) (step s) := by
  cases hs : s.schedule with
  | nil =>
    rw [step_of_nil hs]
    exact (solverTurn_answersUnless s).mono fun hp => .inl ⟨hp, .inl hs⟩
  | cons e rest =>
    rw [step_of_cons hs]
    have he : e.allowed = true := by
      by_contra hne
      exact h ⟨e, rest, hs, Bool.eq_false_iff.2 hne⟩
    refine (runEvent_answersUnless he _).mono ?_
    rintro (⟨hp, rfl⟩ | ⟨w, i, hp, rfl, hd, hi⟩)
    · exact .inl ⟨hp, .inr ⟨rest, hs⟩⟩
    · exact .inr ⟨w, rest, i, hp, hs, hd, hi⟩

end Sys2Proof.Machine
end

section
/-! ### The settled statements: outcomes and faults (60_exceptions.md) -/

namespace Sys2Proof.Machine

/-- Settles O40: a command that does not end in OK has raised, and the solver's other end is Unsolvable. -/
theorem raisedOutcomesArePrecise : Obligations.RaisedOutcomesArePrecise := by
  refine ⟨fun i s t hp h hc => (effect_of_idle hp h).eq_raise hc, fun w s t hp h hc => eq_raise_of_command hp h hc,
    fun s t hp h hc => ?_⟩
  obtain ⟨mask, -, ⟨xs, rfl⟩ | rfl⟩ := solverTurn_of_solving hp h
  · exact absurd rfl hc
  · rfl

/-- Settles O41: the outcome of a command is `outcomeOf`, and an outcome other than OK is raised. -/
theorem invalidArgumentExactlyWhen : Obligations.InvalidArgumentExactlyWhen := by
  intro i s t hp h
  refine ⟨?_, fun hc => ?_⟩
  · rw [ecode_of_exec hp h]
    exact outcomeOf_eq_invalidArgument_iff
  · have ht : t = raise t.ecode s := (effect_of_idle hp h).eq_raise (hc ▸ OutcomeCode.noConfusion)
    rwa [hc] at ht

/-- Settles O42: the outcome of a command is `outcomeOf`, and the solver's step has two ends. -/
theorem fieldErrorsExactlyWhen : Obligations.FieldErrorsExactlyWhen := by
  refine ⟨fun i s t hp h => ?_, fun s t hp h => ?_⟩
  · rw [ecode_of_exec hp h]
    exact ⟨outcomeOf_eq_divisionByZero_iff, outcomeOf_eq_fieldDomainError_iff,
      outcomeOf_ne_unsolvable_illegalCommand s i⟩
  · exact (solverTurn_ends hp h).imp (fun ⟨_, hok, _⟩ => hok) fun ⟨_, huns, _⟩ => huns

/-- Settles O11: a field operation is ignored, is dropped, completes with a RESULT, or raises. -/
theorem fieldOpsFrame : Obligations.FieldOpsFrame := by
  intro i s t hi h
  rcases exec_next h with ⟨hp, rfl⟩ | ⟨hp, rfl⟩ | ⟨hp, he⟩
  · exact ⟨rfl, rfl, rfl, fun _ => rfl, fun _ => rfl, rfl, rfl, fun _ => rfl, fun _ => ⟨rfl, rfl, rfl⟩,
      fun hidle => Phase.noConfusion (hp.symm.trans hidle), fun _ => rfl⟩
  · exact ⟨rfl, rfl, rfl, fun _ => rfl, fun _ => rfl, rfl, rfl, fun hne => absurd hp hne, fun _ => ⟨rfl, rfl, rfl⟩,
      fun hidle => Phase.noConfusion (hp.symm.trans hidle), fun _ => rfl⟩
  · rcases he.of_fieldOp hi with ⟨v, rfl⟩ | ⟨c, hc, rfl⟩
    · exact ⟨rfl, rfl, rfl, fun _ => rfl, fun _ => rfl, rfl, rfl, fun _ => rfl, fun hne => absurd hp hne,
        fun _ => .inl ⟨rfl, rfl⟩, fun _ => rfl⟩
    · exact ⟨rfl, rfl, rfl, fun _ => rfl, fun _ => rfl, rfl, rfl, fun _ => rfl, fun hne => absurd hp hne,
        fun _ => .inr ⟨hc, rfl⟩,
        fun htotal => absurd ((ecode_of_exec hp h).trans (outcomeOf_totalFieldOp htotal)) hc⟩

/-- Settles O32: acceptance drops the word, and OVERRUN is kept by every event but reset and CLR_STATUS in Idle. -/
theorem commandsAreDroppedWhileSolving : Obligations.CommandsAreDroppedWhileSolving := by
  refine ⟨fun w s hp => command_of_solving w hp, fun e s t hs h ht => ?_⟩
  refine (runEvent_effect h).flags_kept.resolve_left fun ⟨_, hkept⟩ => ?_
  exact Bool.false_ne_true (ht.symm.trans (hkept hs))

/-- Settles O33: acceptance ignores the word, and phase Fatal is entered with Unsolvable only. -/
theorem commandsAreIgnoredWhileFatal : Obligations.CommandsAreIgnoredWhileFatal := by
  refine ⟨fun w s hp => ⟨command_of_fatal w hp, ?_, fun hc => ?_⟩, fun hp => Phase.noConfusion hp,
    fun e s t hs h => (runEvent_effect h).ecode_of_fatal hs⟩
  · simp [statusWord_getLsbD, fatal, hp]
  · rw [statusWord_ecode, hc]
    rfl

/-- Settles O43: a step is refused its access, or answers unless it finds an entry unwritten. -/
theorem stepsStopOnlyInModelFaults : Obligations.StepsStopOnlyInModelFaults := by
  refine ⟨fun s x hx => ?_, fun s => ⟨fun hf => ?_, step_of_refusedNext⟩, fun s hf => ?_⟩
  · by_cases hr : RefusedNext s
    · cases (step_of_refusedNext hr).symm.trans hx
    · exact (step_answersUnless hr).ne_refused x hx
  · by_contra hr
    cases ((step_answersUnless hr).reason_of_fault hf).1
  · by_cases hr : RefusedNext s
    · cases (step_of_refusedNext hr).symm.trans hf
    · exact ((step_answersUnless hr).reason_of_fault hf).2

end Sys2Proof.Machine
end

section
/-! ### Reset (70_reset_and_hazards.md R230) -/

namespace Sys2Proof.Machine

/-- Of the events, only the solver and ERASE_FILL move the phase besides reset, and neither of them from Fatal (R32). -/
theorem EventEffect.eq_reset_of_leaves_fatal {s t : State} {e : Event} (h : EventEffect s e t)
    (hs : s.phase = .fatal) (ht : t.phase ≠ .fatal) : e = .reset := by
  rcases h.phase_moves with hkept | ⟨hp, -⟩ | ⟨hp, -⟩ | ⟨hp, -⟩ | ⟨-, hreset⟩
  · exact absurd (hkept.trans hs) ht
  · exact Phase.noConfusion (hs.symm.trans hp)
  · exact Phase.noConfusion (hs.symm.trans hp)
  · exact Phase.noConfusion (hs.symm.trans hp)
  · exact hreset

/-- Settles O45: reset answers R37's values, and no other event moves the phase from Fatal. -/
theorem resetEventResets : Obligations.ResetEventResets := by
  obtain ⟨-, -, -, -, -, -, hconfig, hunwritten⟩ := resetValues
  refine ⟨fun s => ?_, fun e s t hs h ht => (runEvent_effect h).eq_reset_of_leaves_fatal hs ht⟩
  have hstatus : statusWord (assertReset s) = 0x00000000#32 :=
    statusWord_of_idle (assertReset_overrun s) (assertReset_sticky s) (assertReset_ecode s) (assertReset_phase s)
  exact ⟨assertReset s, rfl, assertReset_phase s, hstatus, assertReset_result s, assertReset_n s,
    assertReset_known s, hunwritten, hconfig⟩

end Sys2Proof.Machine
end

section
/-! ### What a field operation reads (40_field_ops.md section 2) -/

namespace Sys2Proof.Machine

/-- STATUS holds BUSY, FATAL, OVERRUN, STICKY and ECODE (R28) and nothing more. -/
theorem statusWord_eq_iff {s s' : State} : statusWord s' = statusWord s ↔
    busy s' = busy s ∧ fatal s' = fatal s ∧ s'.overrun = s.overrun ∧ s'.sticky = s.sticky ∧
      s'.ecode.bits = s.ecode.bits := by
  constructor
  · intro h
    have hbit (i : Nat) : (statusWord s').getLsbD i = (statusWord s).getLsbD i := by rw [h]
    simp only [statusWord_getLsbD] at hbit
    exact ⟨hbit 0, hbit 1, hbit 2, hbit 3, by rw [← statusWord_ecode, h, statusWord_ecode]⟩
  · rintro ⟨hbusy, hfatal, hoverrun, hsticky, hbits⟩
    simp only [statusWord, hbusy, hfatal, hoverrun, hsticky, hbits]

section
variable {s s' : State} (h : statusWord s' = statusWord s)
include h

theorem statusWord_drop_congr : statusWord (drop s') = statusWord (drop s) := by
  obtain ⟨hbusy, hfatal, -, hsticky, hbits⟩ := statusWord_eq_iff.1 h
  exact statusWord_eq_iff.2 ⟨hbusy, hfatal, rfl, hsticky, hbits⟩

theorem statusWord_complete_result_congr (v : Byte) :
    statusWord (complete { s' with result := v }) = statusWord (complete { s with result := v }) := by
  obtain ⟨hbusy, hfatal, hoverrun, hsticky, -⟩ := statusWord_eq_iff.1 h
  exact statusWord_eq_iff.2 ⟨hbusy, hfatal, hoverrun, hsticky, rfl⟩

theorem statusWord_raise_congr (c : OutcomeCode) : statusWord (raise c s') = statusWord (raise c s) := by
  obtain ⟨hbusy, hfatal, hoverrun, -, -⟩ := statusWord_eq_iff.1 h
  exact statusWord_eq_iff.2 ⟨hbusy, hfatal, hoverrun, rfl, rfl⟩

end

/-- What a field operation answers comes of its operands alone. -/
theorem FieldOp.exec_eq_accept_answer {i : Instr} (hi : FieldOp i) :
    ∃ r : Except OutcomeCode Byte, ∀ s, exec i s = accept s (answer r) := by
  rcases hi with ⟨a, b, rfl⟩ | ⟨a, b, rfl⟩ | ⟨e, rfl⟩ | ⟨a, b, rfl⟩ | ⟨v, rfl⟩ <;> exact ⟨_, fun _ => rfl⟩

theorem answer_result_status_congr {r : Except OutcomeCode Byte} {s s' t t' : State} (hresult : s'.result = s.result)
    (hstatus : statusWord s' = statusWord s) (h : answer r s = .next t) (h' : answer r s' = .next t') :
    t'.result = t.result ∧ statusWord t' = statusWord t := by
  cases r with
  | ok v =>
    cases h
    cases h'
    exact ⟨rfl, statusWord_complete_result_congr hstatus v⟩
  | error c =>
    cases h
    cases h'
    exact ⟨hresult, statusWord_raise_congr hstatus c⟩

/-- Settles O12: the answer comes of the operands, and acceptance looks at the phase only. -/
theorem fieldOpsIgnoreBuffers : Obligations.FieldOpsIgnoreBuffers := by
  intro i s s' t t' hi hphase hresult hstatus h h'
  obtain ⟨r, hr⟩ := FieldOp.exec_eq_accept_answer hi
  rw [hr] at h h'
  rcases accept_next h with ⟨hp, rfl⟩ | ⟨hp, rfl⟩ | ⟨hp, ha⟩
  · rw [accept_of_fatal (hphase.trans hp)] at h'
    cases h'
    exact ⟨hresult, hstatus⟩
  · rw [accept_of_solving (hphase.trans hp)] at h'
    cases h'
    exact ⟨hresult, statusWord_drop_congr hstatus⟩
  · rw [accept_of_idle (hphase.trans hp)] at h'
    exact answer_result_status_congr hresult hstatus ha h'

end Sys2Proof.Machine
end
